-- ==== Sys2Proof/Word.lean ====
section
/-! DEFINITION. The widths of SFX's values and the operand records of its data model
(spec/00_scope.md R8, R13, R14; spec/30_encoding.md R66). -/

namespace Sys2Proof

/-- One byte of a frame or of a command. -/
abbrev Byte := BitVec 8

/-- `u16`: channel operands, the window's bounds and `rpm` (R8: CW = 16, RPMW = 16). -/
abbrev U16 := BitVec 16

/-- `s32`: PWM values and pin statuses, two's complement (R8: PW = 32, SW = 32). -/
abbrev S32 := BitVec 32

/-- The document's "float" as its 32-bit pattern (R14). -/
abbrev F := BitVec 32

/-- One channel register, 11 bits (R21). -/
abbrev Chan := BitVec 11

/-- The channel bank CH[0..15] (R21). -/
abbrev Bank := Vector Chan 16

/-- A reference that may be absent, without data of its own (R62, R66). -/
inductive Presence where
  | absent
  | present
  deriving DecidableEq, Repr

/-- `channel_range` (R66). No relation between the bounds is required. -/
structure ChannelWindow where
  min : U16
  max : U16
  deriving DecidableEq, Repr

/-- `velocity_range` (R66), two binary32 patterns. -/
structure VelocityRange where
  min : F
  max : F
  deriving DecidableEq, Repr

/-- `pwm_range` (R66). -/
structure PwmRange where
  min : S32
  mid : S32
  max : S32
  deriving DecidableEq, Repr

end Sys2Proof
end

