-- ==== Sys2Proof/Syntax.lean ====
section
/-! DEFINITION. The record form of a command, one constructor per row of spec/opcode_table.json
(spec/30_encoding.md R66). The bytes of an absent reference are no part of it (R68). -/

namespace Sys2Proof

/-- The seven commands of SFX (R1, R66). -/
inductive Instr where
  /-- DECODE: unpack the frame buffer into the channel bank (R100). -/
  | decode (buf : Presence)
  /-- RDCH: read one channel of the bank (R106). -/
  | rdch (k : BitVec 4)
  /-- PARCHK: the flag-byte check (R108). -/
  | parchk (flag : Byte)
  /-- IVEL: channel value to velocity (R120). -/
  | ivel (chan : U16) (crange : Option ChannelWindow) (vrange : Option VelocityRange)
  /-- IPWM: channel value to PWM value (R130). -/
  | ipwm (chan : U16) (crange : Option ChannelWindow) (prange : Option PwmRange)
  /-- DRIVE: direction and step pins (R150). -/
  | drive (chan : U16) (crange : Option ChannelWindow) (motor : Presence)
  /-- STEPINT: rpm to microseconds per step (R170). -/
  | stepint (rpm : U16)
  deriving DecidableEq, Repr

end Sys2Proof
end

