-- ==== Sys2Proof/Machine/State.lean ====
section
/-! DEFINITION. The state of the machine (spec/10_state.md R20 to R34), its value right after reset
(spec/70_reset_and_hazards.md R210 to R212), and the reasons a step can stop. -/

namespace Sys2Proof.Machine

/-- Where the model stops with a fault. The spec's own faults (IllegalCmd to ResultRange) are not
here: they are responses, after which the block goes on (R183). -/
inductive Fault where
  /-- Raised by a read of a frame byte that holds no value (R41, R42: "A read at i >= FLEN is never
  performed"). Only DECODE reads, after it has checked FLEN, so no state a run reaches raises it.
  Safe. -/
  | unloadedByte (index : Nat)
  /-- Raised by a read outside FB[0..24], an address that does not exist (R40). No command makes
  such a read. Safe. -/
  | noSuchByte (index : Nat)
  deriving DecidableEq, Repr

/-- Where the model has no step to take. -/
inductive Refusal where
  /-- Raised by an arm of `exec` whose instruction has no meaning yet. Safe. -/
  | notModelled (mnemonic : String)
  /-- Raised by `step` when the host makes no further move: "No step is taken without a command",
  the end of the run (R10; log 1). Safe. -/
  | endOfStream
  /-- Raised by `step` when the host's stream ends inside a command: "the model refuses the stream"
  (R70; log 12). Safe. -/
  | truncatedCommand
  /-- Raised by `step` at a LOADFRAME of more than 25 bytes, which is no host move (R78; log 13).
  Safe. -/
  | frameTooLong
  deriving DecidableEq, Repr

/-- The two outputs of the MotorInterface (R15, R28). -/
inductive Pin where
  | dir
  | step
  deriving DecidableEq, Repr

/-- One entry of PINEV (R32). -/
structure PinEvent where
  pin : Pin
  level : Bool
  deriving DecidableEq, Repr

/-- The statuses the pin environment will answer to the next direction write and the next step
write (R10, R78). -/
structure PinAnswers where
  dir : S32
  step : S32
  deriving DecidableEq, Repr

/-- The spec's own five faults (R180, R183). -/
inductive SpecFault where
  | illegalCmd
  | shortBuffer
  | chanInvalid
  | divZero
  | resultRange
  deriving DecidableEq, Repr

/-- The status field of a response (R180). The reserved codes have no constructor: they are never
produced. -/
inductive Status where
  | ok
  | nullBuffer
  | nullRange
  | nullArgument
  | pinError
  | fault (f : SpecFault)
  deriving DecidableEq, Repr

/-- A response (R64). -/
structure Response where
  status : Status
  result : BitVec 32
  deriving DecidableEq, Repr

/-- One move of the host (R78, R215; log 1). -/
inductive HostMove where
  /-- One byte of the host's command string (R60, R70). -/
  | cmdByte (b : Byte)
  /-- LOADFRAME (R78). -/
  | loadFrame (bytes : List Byte)
  /-- PINS: what the pin environment will answer (R78). -/
  | pins (answers : PinAnswers)
  /-- RESET (R210). -/
  | reset
  deriving DecidableEq, Repr

/-- The bytes of FB that hold a value, their addresses strictly rising (R40, R41). -/
abbrev Memory := List Host.Cell

/-- The machine: the block, the host's buffer and moves, the pin environment's answers. -/
structure State where
  /-- CH[0..15] (R21). -/
  ch : Bank
  /-- CHV (R24). -/
  chv : Bool
  /-- DIR_OUT (R28). -/
  dirOut : Bool
  /-- STEP_OUT (R28). -/
  stepOut : Bool
  /-- FLT (R25). -/
  flt : BitVec 5
  /-- PINEV, oldest first (R32). -/
  pinev : List PinEvent
  /-- FB (R31). -/
  fb : Memory
  /-- FLEN (R31). -/
  flen : Fin 26
  /-- What the pin environment will answer (R152; log 4). -/
  pins : PinAnswers
  /-- The host's moves to come, the next one first (R9, R215; log 1). -/
  host : List HostMove
  /-- The command stream position (R27; log 2). -/
  cp : Nat
  /-- The response to the last command, none before the first (R64; log 3). -/
  resp : Option Response
  /-- How many times the step has drawn free values (log 5). -/
  draws : Nat
  deriving DecidableEq, Repr

/-- The machine right after reset (R211, R212). CH is the model's choice (log 6), the fields the
spec does not list are in logs 1 to 5. -/
def State.reset : State where
  ch := #v[0, 0, 0, 0, 0, 0, 0, 0, 0, 0, 0, 0, 0, 0, 0, 0]
  chv := false
  dirOut := false
  stepOut := false
  flt := 0
  pinev := []
  fb := []
  flen := 0
  pins := ⟨0, 0⟩
  host := []
  cp := 0
  resp := none
  draws := 0

end Sys2Proof.Machine
end

