-- ==== Sys2Proof/Machine/Flags.lean ====
section
/-! DEFINITION. The flags of the block: the status codes and FLT bits (spec/60_exceptions.md R180,
spec/10_state.md R25) and CHV (R24). No other flag exists (R26). -/

namespace Sys2Proof.Machine

/-- The FLT bit of a fault (R25). -/
def SpecFault.bit : SpecFault → Nat
  | .illegalCmd => 0
  | .shortBuffer => 1
  | .chanInvalid => 2
  | .divZero => 3
  | .resultRange => 4

/-- The 4-bit status code (R180); a fault's code is 8 plus its FLT bit (R25). -/
def Status.code : Status → BitVec 4
  | .ok => 0
  | .nullBuffer => 1
  | .nullRange => 2
  | .nullArgument => 3
  | .pinError => 4
  | .fault f => BitVec.ofNat 4 (8 + f.bit)

/-- FLT with a fault's bit set; the other bits stay (R25). -/
def setFaultBit (flt : BitVec 5) (f : SpecFault) : BitVec 5 := flt ||| 1#5 <<< f.bit

/-- CHV cleared (R24). -/
def State.clearValid (s : State) : State := { s with chv := false }

end Sys2Proof.Machine
end

