-- ==== Sys2Proof/Config.lean ====
section
/-! DEFINITION. What the document fixes or leaves to a parameter (spec/00_scope.md R7, R8), as the
shape of one record whose taken values are in Sys2Proof/Machine/Params.lean, and the free values
of the model: constants with no body, one for each `any` or draw of the spec. -/

namespace Sys2Proof

/-- The reading of the PWM formula (R132; spec/93_implementation_defined.md U3). -/
inductive PwmArith where
  /-- All-integer, left to right, division toward zero: the instance the spec takes. -/
  | intTrunc
  /-- Evaluated in `F`, the result truncated: the alternative of U3. -/
  | floatTrunc
  deriving DecidableEq, Repr

/-- The type `F` and its operators as a configuration record (R14). The first operand of each
arithmetic operation is the NaN it answers when its result is a NaN. -/
structure FloatOps where
  add : F → F → F → F
  sub : F → F → F → F
  mul : F → F → F → F
  div : F → F → F → F
  /-- `i2f`. -/
  ofInt : Int → F
  /-- The integer part toward zero; `none` for a NaN or an infinity (U3, `f2i_trunc`). -/
  truncate : F → Option Int

/-- The constants of R7 that are not widths and the parameters of R8. -/
structure Params where
  /-- FRAME_LEN. -/
  frameLen : Nat
  /-- PAY_FIRST. -/
  payFirst : Nat
  /-- PAY_LAST. -/
  payLast : Nat
  /-- MIN_VALID. -/
  minValid : Nat
  /-- CHMASK. -/
  chMask : Nat
  /-- VEL_DZ_LO. -/
  velDzLo : U16
  /-- VEL_DZ_HI. -/
  velDzHi : U16
  /-- PWM_DZ_LO. -/
  pwmDzLo : U16
  /-- PWM_DZ_HI. -/
  pwmDzHi : U16
  /-- PPR, `pulses_per_revolution`. -/
  ppr : Nat
  /-- US_PER_MIN. -/
  usPerMin : Nat
  /-- STEP_TABLE: the step-pin level of each phase. -/
  stepTable : BitVec 2 → Bool
  /-- PARITY_MASK. -/
  parityMask : Byte
  /-- FLOAT. -/
  float : FloatOps
  /-- PWM_ARITH. -/
  pwmArith : PwmArith
  /-- DIR_FWD_LEVEL. -/
  dirFwdLevel : Bool

/-- FREE VALUE: the result field of the n-th response that carries a fault (R64, R183; log 5). -/
opaque Config.anyResult : Nat → BitVec 32

/-- FREE VALUE: what channel register `k` holds after the n-th event that leaves the bank
unspecified, a ShortBuffer or a RESET (R104, R211; log 5, 14). -/
opaque Config.anyChannel : Nat → Nat → Chan

/-- FREE VALUE: the sign of the n-th drawn NaN (R14, U7; log 5, 8). -/
opaque Config.nanSign : Nat → BitVec 1

/-- FREE VALUE: the fraction of the n-th drawn NaN (R14, U7; log 5, 8). -/
opaque Config.nanFraction : Nat → BitVec 23

end Sys2Proof
end

