-- ==== Sys2Proof/Machine/Float.lean ====
section
/-! DEFINITION. The type `F` as IEEE 754 binary32 with round to nearest, ties to even
(spec/00_scope.md R14; log 8, 9): a pattern is unpacked, the operation is done exactly on
`(-1)^neg * m * 2^e`, and the result is rounded once. -/

namespace Sys2Proof.Machine

/-- An `F` value by kind; `fin neg m e` is `(-1)^neg * m * 2^e`, with `m = 0` a zero. -/
inductive FVal where
  | nan
  | inf (neg : Bool)
  | fin (neg : Bool) (m : Nat) (e : Int)
  deriving DecidableEq, Repr

/-- R14: "1 sign bit (bit 31), 8 exponent bits (bits 30:23, bias 127), 23 fraction bits (bits 22:0);
subnormals are kept". -/
def unpack (w : F) : FVal :=
  let neg := w.getLsbD 31
  let ex := (w.extractLsb' 23 8).toNat
  let fr := (w.extractLsb' 0 23).toNat
  if ex = 255 then (if fr = 0 then .inf neg else .nan)
  else if ex = 0 then .fin neg fr (-149)
  else .fin neg (fr + 2 ^ 23) (ex - 150)

/-- Whether a pattern is a NaN. -/
def isNaN (w : F) : Bool := unpack w == .nan

/-- The pattern with a given sign and the 31 bits below it. -/
def signed (neg : Bool) (magnitude : Nat) : F :=
  BitVec.ofBool neg ++ BitVec.ofNat 31 magnitude

/-- Infinity of a given sign. -/
def infinity (neg : Bool) : F := signed neg (255 * 2 ^ 23)

/-- `a / b` rounded to the nearest integer, ties to even; `b > 0`. -/
def roundNearest (a b : Nat) : Nat :=
  if b < 2 * (a % b) ∨ (b = 2 * (a % b) ∧ a / b % 2 = 1) then a / b + 1 else a / b

/-- The exponent of the leading bit of `num / den`, both positive: the `k` with
`2^k <= num / den < 2^(k + 1)`. -/
def leadingExponent (num den : Nat) : Int :=
  let k : Int := (num.log2 : Int) - den.log2
  if num * 2 ^ (-k).toNat < den * 2 ^ k.toNat then k - 1 else k

/-- The exponent of the last place of a result of magnitude `num / den * 2^e`: 24 significant bits,
and no exponent below that of the subnormals. -/
def lastPlace (num den : Nat) (e : Int) : Int := max (e + leadingExponent num den - 23) (-149)

/-- The magnitude `num / den * 2^e` in units of its last place, rounded. -/
def significand (num den : Nat) (e : Int) : Nat :=
  let u := lastPlace num den e
  roundNearest (num * 2 ^ (e - u).toNat) (den * 2 ^ (u - e).toNat)

/-- `(-1)^neg * (num / den) * 2^e` rounded once to an `F` (R14); `den > 0`. A significand that rounds
up to 2^24 carries into the exponent field. -/
def roundPack (neg : Bool) (num den : Nat) (e : Int) : F :=
  if num = 0 then signed neg 0
  else
    let magnitude := (lastPlace num den e + 149).toNat * 2 ^ 23 + significand num den e
    if 255 * 2 ^ 23 ≤ magnitude then infinity neg else signed neg magnitude

/-- The exact sum of two finite values as a signed integer in units of `2 ^ min e f`. -/
def exactSum (na : Bool) (m : Nat) (e : Int) (nb : Bool) (n : Nat) (f : Int) : Int :=
  (if na then -1 else 1) * (m * 2 ^ (e - min e f).toNat : Nat) +
    (if nb then -1 else 1) * (n * 2 ^ (f - min e f).toNat : Nat)

/-- `fadd`. An exact zero sum is -0 only when both operands are negative. -/
def fadd (nan a b : F) : F :=
  match unpack a, unpack b with
  | .nan, _ => nan
  | _, .nan => nan
  | .inf x, .inf y => if x = y then infinity x else nan
  | .inf x, .fin _ _ _ => infinity x
  | .fin _ _ _, .inf y => infinity y
  | .fin x m e, .fin y n f =>
    let sum := exactSum x m e y n f
    if sum = 0 then signed (x && y) 0
    else roundPack (decide (sum < 0)) sum.natAbs 1 (min e f)

/-- The pattern with its sign bit inverted. -/
def fneg (a : F) : F := a ^^^ 0x80000000#32

/-- `fsub`. -/
def fsub (nan a b : F) : F := fadd nan a (fneg b)

/-- `fmul`. -/
def fmul (nan a b : F) : F :=
  match unpack a, unpack b with
  | .nan, _ => nan
  | _, .nan => nan
  | .inf x, .inf y => infinity (x ^^ y)
  | .inf x, .fin y n _ => if n = 0 then nan else infinity (x ^^ y)
  | .fin x m _, .inf y => if m = 0 then nan else infinity (x ^^ y)
  | .fin x m e, .fin y n f => roundPack (x ^^ y) (m * n) 1 (e + f)

/-- `fdiv`. -/
def fdiv (nan a b : F) : F :=
  match unpack a, unpack b with
  | .nan, _ => nan
  | _, .nan => nan
  | .inf _, .inf _ => nan
  | .inf x, .fin y _ _ => infinity (x ^^ y)
  | .fin x _ _, .inf y => signed (x ^^ y) 0
  | .fin x m e, .fin y n f =>
    if n = 0 then (if m = 0 then nan else infinity (x ^^ y))
    else roundPack (x ^^ y) m n (e - f)

/-- `i2f`: "converts an integer to F, rounded to nearest even" (R14). -/
def i2f (n : Int) : F := roundPack (decide (n < 0)) n.natAbs 1 0

/-- The integer part toward zero, `none` for a NaN or an infinity (U3, `f2i_trunc`). -/
def truncateF (a : F) : Option Int :=
  match unpack a with
  | .nan => none
  | .inf _ => none
  | .fin neg m e =>
    let t : Nat := if 0 ≤ e then m * 2 ^ e.toNat else m / 2 ^ (-e).toNat
    some (if neg then -(t : Int) else t)

/-- The NaN of a draw: any sign, any non-zero fraction (R14, U7; log 8). -/
def drawnNaN (n : Nat) : F :=
  Config.nanSign n ++ 255#8 ++
    (if Config.nanFraction n = 0 then 0x400000#23 else Config.nanFraction n)

/-- The instance of `F` the spec takes (R8 FLOAT, R14). -/
def binary32 : FloatOps where
  add := fadd
  sub := fsub
  mul := fmul
  div := fdiv
  ofInt := i2f
  truncate := truncateF

end Sys2Proof.Machine
end

