-- ==== Sys2Proof/Machine/Params.lean ====
section
/-! DEFINITION. The values of the parameters (spec/00_scope.md R7, R8; log 10, 11). -/

namespace Sys2Proof.Machine

/-- STEP_TABLE: "phase 0 -> low, phase 1 -> high, phase 2 -> high, phase 3 -> low" (R154). -/
def stepLevels (phase : BitVec 2) : Bool := phase = 1 || phase = 2

/-- The constants of R7 and the taken values of R8. -/
def params : Params where
  frameLen := 25
  payFirst := 1
  payLast := 22
  minValid := 23
  chMask := 0x7FF
  velDzLo := 950
  velDzHi := 1050
  pwmDzLo := 995
  pwmDzHi := 1005
  ppr := 200
  usPerMin := 60000000
  stepTable := stepLevels
  parityMask := 0xC0
  float := binary32
  pwmArith := .intTrunc
  dirFwdLevel := true

end Sys2Proof.Machine
end

