-- ==== Sys2Proof/Machine/Ops.lean ====
section
/-! DEFINITION. The named operations over memory and registers, the response, and the fault
mechanism, which is this hardware's taking of an exception (spec/60_exceptions.md R183, R192).
There is no return from one (R193: "there is no handler inside the block"). -/

namespace Sys2Proof.Machine

/-- The value listed for an address; an unlisted address holds none (R41; log 7). -/
def Memory.read : Memory → Nat → Option Byte
  | [], _ => none
  | (a, b) :: m, i => if a = i then some b else Memory.read m i

/-- The memory that holds the given bytes from address `first` on, and nothing else. -/
def Memory.ofBytes (first : Nat) : List Byte → Memory
  | [] => []
  | b :: bs => (first, b) :: Memory.ofBytes (first + 1) bs

/-- The canonical form: addresses strictly rising, all inside FB[0..24] (R40). -/
abbrev Memory.wf (m : Memory) : Prop :=
  m.Pairwise (fun a b => a.1 < b.1) ∧ ∀ c ∈ m, c.1 < 25

/-- `MemRead(i, 1)`, the one access of the block (R42). It changes nothing. -/
def State.memRead (s : State) (i : Nat) : Except Fault Byte :=
  if i < params.frameLen then
    match s.fb.read i with
    | some b => .ok b
    | none => .error (.unloadedByte i)
  else .error (.noSuchByte i)

/-- `n` bytes of FB from index `i` on (R100: the reads of DECODE). -/
def State.memReads (s : State) : Nat → Nat → Except Fault (List Byte)
  | _, 0 => .ok []
  | i, n + 1 =>
    match s.memRead i with
    | .error f => .error f
    | .ok b =>
      match s.memReads (i + 1) n with
      | .error f => .error f
      | .ok bs => .ok (b :: bs)

/-- `CH[k]` (R20, R21). -/
def State.channel (s : State) (k : BitVec 4) : Chan := s.ch[k.toNat]

/-- `CH[k] <- v` for all 16 at once, and CHV <- 1 (R22, R24). -/
def State.setBank (s : State) (bank : Bank) : State := { s with ch := bank, chv := true }

/-- A bank of unspecified values (R104, R211). -/
def anyBank (n : Nat) : Bank :=
  let c := Config.anyChannel n
  #v[c 0, c 1, c 2, c 3, c 4, c 5, c 6, c 7, c 8, c 9, c 10, c 11, c 12, c 13, c 14, c 15]

/-- `CH[0..15] <- any`; the caller counts the draw (log 5). -/
def State.loseBank (s : State) : State := { s with ch := anyBank s.draws }

/-- Count one draw of free values (log 5). -/
def State.countDraw (s : State) : State := { s with draws := s.draws + 1 }

/-- `respond(status, result)` (R15, R64). -/
def State.respond (s : State) (status : Status) (result : BitVec 32) : State :=
  { s with resp := some ⟨status, result⟩ }

/-- `raise <Fault>`: "set the fault's bit in FLT and end the step with the fault's status code and an
unspecified result" (R15, R183). -/
def State.raise (s : State) (f : SpecFault) : State :=
  { s with
    flt := setFaultBit s.flt f
    resp := some ⟨.fault f, Config.anyResult s.draws⟩
    draws := s.draws + 1 }

/-- The response as 5 bytes, status first, result little-endian (R64). -/
def Response.bytes (r : Response) : List Byte :=
  [r.status.code.setWidth 8, r.result.extractLsb' 0 8, r.result.extractLsb' 8 8,
   r.result.extractLsb' 16 8, r.result.extractLsb' 24 8]

/-- The status the pin environment answers to a write (R152). -/
def PinAnswers.to (a : PinAnswers) : Pin → S32
  | .dir => a.dir
  | .step => a.step

/-- The answers left once one has been given: with no new PINS the next one is 0 (R78; log 4). -/
def PinAnswers.spend (a : PinAnswers) : Pin → PinAnswers
  | .dir => { a with dir := 0 }
  | .step => { a with step := 0 }

/-- The output register of a pin takes the level (R28). -/
def State.setPin (s : State) (pin : Pin) (level : Bool) : State :=
  match pin with
  | .dir => { s with dirOut := level }
  | .step => { s with stepOut := level }

/-- `PinWrite(pin, level)`: the register takes the level, the event is appended to PINEV, and the
environment's status is returned (R152). The register takes the level whatever the status. -/
def State.pinWrite (s : State) (pin : Pin) (level : Bool) : S32 × State :=
  (s.pins.to pin,
   { s.setPin pin level with
     pinev := s.pinev ++ [⟨pin, level⟩]
     pins := s.pins.spend pin })

/-- LOADFRAME: FB[i] <- bi for i < n, FLEN <- n, the bytes at i >= n hold no value (R41, R78). A
frame of more than 25 bytes is no host move (log 13). -/
def State.loadFrame (s : State) (bytes : List Byte) :
    Host.Outcome State Fault Refusal :=
  if h : bytes.length < 26 then
    .next { s with fb := Memory.ofBytes 0 bytes, flen := ⟨bytes.length, h⟩ }
  else .refused .frameTooLong

/-- PINS d, s (R78). -/
def State.setPins (s : State) (answers : PinAnswers) : State := { s with pins := answers }

/-- RESET: the block's state and FB, FLEN at their reset values, what the spec leaves unspecified a
free value; no pin write is made (R210 to R212; log 14). -/
def State.resetBlock (s : State) : State :=
  { s with
    ch := anyBank s.draws
    chv := false
    dirOut := false
    stepOut := false
    flt := 0
    pinev := []
    fb := []
    flen := 0
    resp := none
    draws := s.draws + 1 }

end Sys2Proof.Machine
end

