-- ==== Sys2Proof/Machine/Operands.lean ====
section
/-! DEFINITION. What the commands compute from their operands before any state is written: the
channels of a frame (spec/40_frame_decoder.md R101), the ordered policy both mappers share
(spec/41_channel_mapper.md R120, R130, R137), integer division toward zero (R13), the narrowing of a
PWM result (R135), and the direction decision of DRIVE (spec/42_step_sequencer.md R151, R153). -/

namespace Sys2Proof.Machine

/-- `bN` of R101: byte N of the frame as a non-negative integer, from the payload bytes that start
at index PAY_FIRST. -/
def payloadByte (payload : List Byte) (i : Nat) : Nat :=
  (payload.getD (i - params.payFirst) 0).toNat

/-- One channel from its row of the table: the mask keeps 11 bits (R101, R12). -/
def chan11 (v : Nat) : Chan := BitVec.ofNat 11 (v &&& params.chMask)

/-- The extraction table (R101), `b i` being FB[i]; the operators are those of R12. -/
def channelTable (b : Nat → Nat) : Bank :=
  #v[chan11 (b 1 ||| b 2 <<< 8),
     chan11 (b 2 >>> 3 ||| b 3 <<< 5),
     chan11 (b 3 >>> 6 ||| b 4 <<< 2 ||| b 5 <<< 10),
     chan11 (b 5 >>> 1 ||| b 6 <<< 7),
     chan11 (b 6 >>> 4 ||| b 7 <<< 4),
     chan11 (b 7 >>> 7 ||| b 8 <<< 1 ||| b 9 <<< 9),
     chan11 (b 9 >>> 2 ||| b 10 <<< 6),
     chan11 (b 10 >>> 5 ||| b 11 <<< 3),
     chan11 (b 12 ||| b 13 <<< 8),
     chan11 (b 13 >>> 3 ||| b 14 <<< 5),
     chan11 (b 14 >>> 6 ||| b 15 <<< 2 ||| b 16 <<< 10),
     chan11 (b 16 >>> 1 ||| b 17 <<< 7),
     chan11 (b 17 >>> 4 ||| b 18 <<< 4),
     chan11 (b 18 >>> 7 ||| b 19 <<< 1 ||| b 20 <<< 9),
     chan11 (b 20 >>> 2 ||| b 21 <<< 6),
     chan11 (b 21 >>> 5 ||| b 22 <<< 3)]

/-- Which step of a mapper's policy answers (R120, R130). -/
inductive Region where
  | below
  | above
  | deadzone
  | between
  deriving DecidableEq, Repr

/-- The policy "in order", with the closed deadzone [lo, hi] (R16, R120, R130): unsigned
comparisons, the first test that holds decides. -/
def region (lo hi chan : U16) (w : ChannelWindow) : Region :=
  if chan < w.min then .below
  else if w.max < chan then .above
  else if lo ≤ chan ∧ chan ≤ hi then .deadzone
  else .between

/-- `tdiv`: integer division rounding toward zero (R13). -/
def tdiv (a b : Int) : Int := a.sign * b.sign * (a.natAbs / b.natAbs : Nat)

/-- `cmax - cmin` in integers (R122, R132). -/
def windowSpan (w : ChannelWindow) : Int := (w.max.toNat : Int) - w.min.toNat

/-- `chan - cmin` in integers (R122, R132). -/
def windowOffset (chan : U16) (w : ChannelWindow) : Int := (chan.toNat : Int) - w.min.toNat

/-- The velocity of one channel value (R120), or the fault it raises; `nan` is the NaN an
operation answers when its result is one. -/
def velocity (p : Params) (nan : F) (chan : U16) (w : ChannelWindow) (v : VelocityRange) :
    Except SpecFault F :=
  match region p.velDzLo p.velDzHi chan w with
  | .below => .ok v.min
  | .above => .ok v.max
  | .deadzone => .ok (p.float.div nan (p.float.add nan v.min v.max) (p.float.ofInt 2))
  | .between =>
    if w.max = w.min then .error .divZero
    else
      let dv := p.float.sub nan v.max v.min
      let slope := p.float.div nan dv (p.float.ofInt (windowSpan w))
      .ok (p.float.add nan v.min (p.float.mul nan slope (p.float.ofInt (windowOffset chan w))))

/-- The PWM value of the deadzone, `(pmin + pmax) / 2`, in the chosen arithmetic (R130, U3). -/
def pwmMiddle (p : Params) (nan : F) (r : PwmRange) : Option Int :=
  match p.pwmArith with
  | .intTrunc => some (tdiv (r.min.toInt + r.max.toInt) 2)
  | .floatTrunc =>
    p.float.truncate (p.float.div nan (p.float.ofInt (r.min.toInt + r.max.toInt)) (p.float.ofInt 2))

/-- `pmin + (pmid - pmax) / (cmax - cmin) * (chan - cmin)` in the chosen arithmetic (R130, R132,
R133, U3). -/
def pwmSlope (p : Params) (nan : F) (chan : U16) (w : ChannelWindow) (r : PwmRange) : Option Int :=
  match p.pwmArith with
  | .intTrunc =>
    some (r.min.toInt + tdiv (r.mid.toInt - r.max.toInt) (windowSpan w) * windowOffset chan w)
  | .floatTrunc =>
    let slope := p.float.div nan (p.float.ofInt (r.mid.toInt - r.max.toInt))
      (p.float.ofInt (windowSpan w))
    p.float.truncate (p.float.add nan (p.float.ofInt r.min.toInt)
      (p.float.mul nan slope (p.float.ofInt (windowOffset chan w))))

/-- The result as an s32, or ResultRange (R135, U3). -/
def narrow : Option Int → Except SpecFault S32
  | none => .error .resultRange
  | some r => if r < -2 ^ 31 ∨ 2 ^ 31 - 1 < r then .error .resultRange else .ok (BitVec.ofInt 32 r)

/-- The PWM value of one channel value (R130), or the fault it raises. -/
def pwm (p : Params) (nan : F) (chan : U16) (w : ChannelWindow) (r : PwmRange) :
    Except SpecFault S32 :=
  match region p.pwmDzLo p.pwmDzHi chan w with
  | .below => .ok r.min
  | .above => .ok r.max
  | .deadzone => narrow (pwmMiddle p nan r)
  | .between => if w.max = w.min then .error .divZero else narrow (pwmSlope p nan chan w r)

/-- "a single threshold at `channel_range.max`" (R151). -/
def forward (chan : U16) (w : ChannelWindow) : Bool := decide (w.max < chan)

/-- `(forward ? +1 : -1) & 0x3` (R153). -/
def phase (fwd : Bool) : BitVec 2 := BitVec.ofInt 2 (if fwd then 1 else -1)

end Sys2Proof.Machine
end

