-- ==== Sys2Proof/Machine/ChannelMapper.lean ====
section
/-! DEFINITION. The channel mapper family: IVEL, IPWM (spec/41_channel_mapper.md). Each evaluated
command is offered one drawn NaN, which is its result exactly when the result is a NaN that an
operation made (R14; log 8). -/

namespace Sys2Proof.Machine

/-- IVEL (R120): NullRange first (R121), then the velocity, or DivZero (R124). -/
def execIvel (chan : U16) (crange : Option ChannelWindow) (vrange : Option VelocityRange)
    (s : State) : Host.Outcome State Fault Refusal :=
  match crange, vrange with
  | some w, some v =>
    match velocity params (drawnNaN s.draws) chan w v with
    | .ok r => .next (s.countDraw.respond .ok r)
    | .error f => .next (s.raise f)
  | _, _ => .next (s.respond .nullRange 0)

/-- IPWM (R130): NullRange first (R131), then the PWM value, or DivZero (R134) or ResultRange
(R135). -/
def execIpwm (chan : U16) (crange : Option ChannelWindow) (prange : Option PwmRange)
    (s : State) : Host.Outcome State Fault Refusal :=
  match crange, prange with
  | some w, some r =>
    match pwm params (drawnNaN s.draws) chan w r with
    | .ok v => .next (s.countDraw.respond .ok v)
    | .error f => .next (s.raise f)
  | _, _ => .next (s.respond .nullRange 0)

end Sys2Proof.Machine
end

