-- ==== Sys2Proof/Machine/FrameDecoder.lean ====
section
/-! DEFINITION. The frame decoder family: DECODE, RDCH, PARCHK (spec/40_frame_decoder.md). -/

namespace Sys2Proof.Machine

/-- DECODE (R100): NullBuffer first (R103), then ShortBuffer (R104), else the whole bank from
FB[1..22] in one step. -/
def execDecode (buf : Presence) (s : State) : Host.Outcome State Fault Refusal :=
  match buf with
  | .absent => .next (s.respond .nullBuffer 0)
  | .present =>
    if s.flen.val < params.minValid then .next ((s.loseBank.clearValid).raise .shortBuffer)
    else
      match s.memReads params.payFirst (params.payLast + 1 - params.payFirst) with
      | .error f => .fault f
      | .ok payload => .next ((s.setBank (channelTable (payloadByte payload))).respond .ok 0)

/-- RDCH (R106): ChanInvalid when CHV = 0, else the channel. -/
def execRdch (k : BitVec 4) (s : State) : Host.Outcome State Fault Refusal :=
  if s.chv then .next (s.respond .ok ((s.channel k).setWidth 32))
  else .next (s.raise .chanInvalid)

/-- PARCHK (R108): 1 when the top two bits of the flag byte are clear, else 0. -/
def execParchk (flag : Byte) (s : State) : Host.Outcome State Fault Refusal :=
  .next (s.respond .ok (if flag &&& params.parityMask = 0 then 1 else 0))

end Sys2Proof.Machine
end

