-- ==== Sys2Proof/Machine/SpeedConverter.lean ====
section
/-! DEFINITION. The speed converter family: STEPINT (spec/43_speed_converter.md). -/

namespace Sys2Proof.Machine

/-- The step interval in microseconds (R170): +0.0 for `rpm = 0`, else one division of two exact
operands (R171). It can be no NaN (R172), so the NaN it offers the division never shows. -/
def stepInterval (p : Params) (rpm : U16) : F :=
  if rpm = 0 then p.float.ofInt 0
  else p.float.div 0x7FC00000 (p.float.ofInt p.usPerMin) (p.float.ofInt (p.ppr * rpm.toNat : Nat))

/-- STEPINT (R170). -/
def execStepint (rpm : U16) (s : State) : Host.Outcome State Fault Refusal :=
  .next (s.respond .ok (stepInterval params rpm))

end Sys2Proof.Machine
end

