-- ==== Sys2Proof/Machine/StepSequencer.lean ====
section
/-! DEFINITION. The step sequencer family: DRIVE (spec/42_step_sequencer.md). -/

namespace Sys2Proof.Machine

/-- The two pin writes of DRIVE, direction first (R150, R157), and the sum of their statuses, taken
in `Int` (R155). The phase is a value inside the step, never kept (R153). -/
def drivePins (fwd : Bool) (s : State) : Int × State :=
  let d := s.pinWrite .dir (if fwd then params.dirFwdLevel else !params.dirFwdLevel)
  let t := d.2.pinWrite .step (params.stepTable (phase fwd))
  (d.1.toInt + t.1.toInt, t.2)

/-- DRIVE (R150): NullArgument without a pin write (R156), else both writes, then PinError exactly
when the sum is not 0, its low 32 bits the result (R155). -/
def execDrive (chan : U16) (crange : Option ChannelWindow) (motor : Presence) (s : State) :
    Host.Outcome State Fault Refusal :=
  match crange, motor with
  | some w, .present =>
    let d := drivePins (forward chan w) s
    if d.1 = 0 then .next (d.2.respond .ok 0)
    else .next (d.2.respond .pinError (BitVec.ofInt 32 d.1))
  | _, _ => .next (s.respond .nullArgument 0)

end Sys2Proof.Machine
end

