-- ==== Sys2Proof/Machine/Dispatch.lean ====
section
/-! DEFINITION. One arm per command (spec/00_scope.md R2). -/

namespace Sys2Proof.Machine

def exec (i : Instr) (s : State) : Host.Outcome State Fault Refusal :=
  match i with
  | .decode buf => Sys2Proof.Machine.execDecode buf s
  | .rdch k => Sys2Proof.Machine.execRdch k s
  | .parchk flag => Sys2Proof.Machine.execParchk flag s
  | .ivel chan crange vrange => Sys2Proof.Machine.execIvel chan crange vrange s
  | .ipwm chan crange prange => Sys2Proof.Machine.execIpwm chan crange prange s
  | .drive chan crange motor => Sys2Proof.Machine.execDrive chan crange motor s
  | .stepint rpm => Sys2Proof.Machine.execStepint rpm s

end Sys2Proof.Machine
end

