-- ==== Sys2Proof/Decode.lean ====
section
/-! DEFINITION. The command encoding of spec/30_encoding.md: cutting the first command off a byte
string (R61, R70), decoding it in the order of R65, and the encoder (R63, R67, R68). -/

namespace Sys2Proof

/-- Why a byte string is no legal command. -/
inductive Reject where
  /-- Not of the length R61 gives its header, so outside the decoder's domain (R65; log 18). -/
  | wrongLength
  /-- OP = 7 (R65 check 1). -/
  | reservedOpcode
  /-- RSV != 0 (R65 check 2). -/
  | reservedHeaderBits
  /-- A present bit that R62 says must be 0 is 1 (R65 check 3). -/
  | presentBit
  /-- RDCH with bits 15:12 not 0 (R65 check 4). -/
  | reservedIndexBits
  deriving DecidableEq, Repr

/-- The OP field (R61). -/
inductive Op where
  | decode | rdch | parchk | ivel | ipwm | drive | stepint | reserved
  deriving DecidableEq, Repr

/-- The opcodes of R61. -/
def Op.ofField : Nat → Op
  | 0 => .decode
  | 1 => .rdch
  | 2 => .parchk
  | 3 => .ivel
  | 4 => .ipwm
  | 5 => .drive
  | 6 => .stepint
  | _ => .reserved

/-- The length in bytes of a command of each opcode (R61). -/
def Op.length : Op → Nat
  | .decode => 1
  | .rdch => 2
  | .parchk => 2
  | .ivel => 15
  | .ipwm => 19
  | .drive => 7
  | .stepint => 3
  | .reserved => 1

/-- Header bits 2:0 (R61). -/
def headerOp (h : Byte) : Op := Op.ofField (h.extractLsb' 0 3).toNat

/-- Header bit 3, P0 (R61). -/
def headerP0 (h : Byte) : Bool := h.getLsbD 3

/-- Header bit 4, P1 (R61). -/
def headerP1 (h : Byte) : Bool := h.getLsbD 4

/-- Header bits 7:5, RSV (R61). -/
def headerRsv (h : Byte) : BitVec 3 := h.extractLsb' 5 3

/-- R61: "The length of a command is a function of OP alone". -/
def commandLength (h : Byte) : Nat := (headerOp h).length

/-- The first command's bytes and the bytes after it; `none` where the string ends before the
command does (R61, R70). -/
def splitCommand : List Byte → Option (List Byte × List Byte)
  | [] => none
  | h :: rest =>
    if (h :: rest).length < commandLength h then none
    else some ((h :: rest).take (commandLength h), (h :: rest).drop (commandLength h))

/-- R62: whether a present bit that must be 0 is 1. -/
def presentBitsIllegal (op : Op) (p0 p1 : Bool) : Bool :=
  match op with
  | .decode => p1
  | .rdch => p0 || p1
  | .parchk => p0 || p1
  | .stepint => p0 || p1
  | .ivel => false
  | .ipwm => false
  | .drive => false
  | .reserved => false

/-- A 16-bit field, low byte first (R60). -/
def u16At (lo hi : Byte) : U16 := hi ++ lo

/-- A 32-bit field, low byte first (R60). -/
def u32At (b0 b1 b2 b3 : Byte) : BitVec 32 := ((b3 ++ b2) ++ b1) ++ b0

/-- A reference without data: its present bit (R62). -/
def presenceOf (p : Bool) : Presence := if p then .present else .absent

/-- A reference with data: the value when its present bit is 1; an absent one's bytes are
ignored (R62, R68). -/
def optionOf {α : Type} (p : Bool) (v : α) : Option α := if p then some v else none

/-- The operand bytes of a command whose header passed the checks (R63, R67, and R65 check 4). -/
def decodeOperands : Op → Bool → Bool → List Byte → Except Reject Instr
  | .decode, p0, _, [] => .ok (.decode (presenceOf p0))
  | .rdch, _, _, [b] =>
    if b.extractLsb' 4 4 ≠ 0 then .error .reservedIndexBits else .ok (.rdch (b.extractLsb' 0 4))
  | .parchk, _, _, [b] => .ok (.parchk b)
  | .ivel, p0, p1, [c0, c1, l0, l1, h0, h1, v0, v1, v2, v3, w0, w1, w2, w3] =>
    .ok (.ivel (u16At c0 c1) (optionOf p0 ⟨u16At l0 l1, u16At h0 h1⟩)
      (optionOf p1 ⟨u32At v0 v1 v2 v3, u32At w0 w1 w2 w3⟩))
  | .ipwm, p0, p1, [c0, c1, l0, l1, h0, h1, a0, a1, a2, a3, m0, m1, m2, m3, z0, z1, z2, z3] =>
    .ok (.ipwm (u16At c0 c1) (optionOf p0 ⟨u16At l0 l1, u16At h0 h1⟩)
      (optionOf p1 ⟨u32At a0 a1 a2 a3, u32At m0 m1 m2 m3, u32At z0 z1 z2 z3⟩))
  | .drive, p0, p1, [c0, c1, l0, l1, h0, h1] =>
    .ok (.drive (u16At c0 c1) (optionOf p0 ⟨u16At l0 l1, u16At h0 h1⟩) (presenceOf p1))
  | .stepint, _, _, [r0, r1] => .ok (.stepint (u16At r0 r1))
  | _, _, _, _ => .error .wrongLength

/-- The decoder, total on any byte string; its checks in the order of R65. -/
def decode : List Byte → Except Reject Instr
  | [] => .error .wrongLength
  | h :: rest =>
    if rest.length + 1 ≠ commandLength h then .error .wrongLength
    else if headerOp h = .reserved then .error .reservedOpcode
    else if headerRsv h ≠ 0 then .error .reservedHeaderBits
    else if presentBitsIllegal (headerOp h) (headerP0 h) (headerP1 h) then .error .presentBit
    else decodeOperands (headerOp h) (headerP0 h) (headerP1 h) rest

/-- A header: RSV = 0, P1, P0, OP (R61). -/
def header (p1 p0 : Bool) (op : BitVec 3) : Byte :=
  0#3 ++ BitVec.ofBool p1 ++ BitVec.ofBool p0 ++ op

/-- The bytes of a 16-bit field, low byte first (R60). -/
def bytes16 (v : U16) : List Byte := [v.extractLsb' 0 8, v.extractLsb' 8 8]

/-- The bytes of a 32-bit field, low byte first (R60). -/
def bytes32 (v : BitVec 32) : List Byte :=
  [v.extractLsb' 0 8, v.extractLsb' 8 8, v.extractLsb' 16 8, v.extractLsb' 24 8]

/-- The bytes of a channel window; an absent one is written as zero bytes (R68, R76). -/
def windowBytes : Option ChannelWindow → List Byte
  | some w => bytes16 w.min ++ bytes16 w.max
  | none => List.replicate 4 0

/-- The bytes of a velocity range; an absent one is written as zero bytes (R68, R76). -/
def velocityBytes : Option VelocityRange → List Byte
  | some v => bytes32 v.min ++ bytes32 v.max
  | none => List.replicate 8 0

/-- The bytes of a PWM range; an absent one is written as zero bytes (R68, R76). -/
def pwmBytes : Option PwmRange → List Byte
  | some r => bytes32 r.min ++ bytes32 r.mid ++ bytes32 r.max
  | none => List.replicate 12 0

/-- The present bit of a reference without data (R62). -/
def Presence.bit : Presence → Bool
  | .absent => false
  | .present => true

/-- The encoder: the byte form of a command (R63). -/
def encode : Instr → List Byte
  | .decode buf => [header false buf.bit 0#3]
  | .rdch k => [header false false 1#3, 0#4 ++ k]
  | .parchk flag => [header false false 2#3, flag]
  | .ivel chan c v =>
    header v.isSome c.isSome 3#3 :: (bytes16 chan ++ windowBytes c ++ velocityBytes v)
  | .ipwm chan c r =>
    header r.isSome c.isSome 4#3 :: (bytes16 chan ++ windowBytes c ++ pwmBytes r)
  | .drive chan c motor =>
    header motor.bit c.isSome 5#3 :: (bytes16 chan ++ windowBytes c)
  | .stepint rpm => header false false 6#3 :: bytes16 rpm

/-- The low `n` bytes of a number, least significant first (R60). -/
def natBytes (n w : Nat) : List Byte := (List.range n).map fun i => BitVec.ofNat 8 (w >>> (8 * i))

/-- The length of the longest command, IPWM (R61). -/
def longestCommand : Nat := 19

/-- The bytes of the command whose bits, numbered as the opcode table numbers them (R60), are the
low `nbits` bits of `w`; every bit above them is 0. -/
def tableWordBytes (nbits w : Nat) : List Byte :=
  match splitCommand (natBytes longestCommand (w % 2 ^ nbits)) with
  | some (cmd, _) => cmd
  | none => []

/-- What the decoder reads from such a command. -/
def decodeTableWord (nbits w : Nat) : Option Instr :=
  match decode (tableWordBytes nbits w) with
  | .ok i => some i
  | .error _ => none

end Sys2Proof
end

