-- ==== Sys2Proof/Machine/Fetch.lean ====
section
/-! DEFINITION. How the next command reaches the block: the bytes at the front of the host's moves
(spec/30_encoding.md R60, R61, R70; spec/10_state.md R27; log 1, 12). -/

namespace Sys2Proof.Machine

/-- The command bytes the host issues before any other move. -/
def leadingBytes : List HostMove → List Byte
  | .cmdByte b :: rest => b :: leadingBytes rest
  | .loadFrame _ :: _ => []
  | .pins _ :: _ => []
  | .reset :: _ => []
  | [] => []

/-- The bytes of the next command; `none` where the stream ends inside it (R70). -/
def State.nextCommand (s : State) : Option (List Byte) :=
  match splitCommand (leadingBytes s.host) with
  | some (cmd, _) => some cmd
  | none => none

/-- Past a command of `n` bytes: "advanced after each command by that command's length" (R27). -/
def State.advance (s : State) (n : Nat) : State :=
  { s with host := s.host.drop n, cp := s.cp + n }

/-- The host's move just made is taken off its list. -/
def State.dropMove (s : State) : State := { s with host := s.host.tail }

/-- An encoding of R69: IllegalCmd, and no other effect (R65, R184). -/
def takeIllegal (s : State) : State := s.raise .illegalCmd

/-- Command bytes put in front of the host's moves, cp standing still. -/
def State.issue (s : State) (cmd : List Byte) : State :=
  { s with host := cmd.map .cmdByte ++ s.host }

end Sys2Proof.Machine
end

