-- ==== Sys2Proof/Machine/Step.lean ====
section
/-! DEFINITION. One step: the host's next move, or the next command run to its response
(spec/00_scope.md R10; spec/30_encoding.md R65, R70; spec/70_reset_and_hazards.md R215). -/

namespace Sys2Proof.Machine

/-- One command, given as its bytes (R65). -/
def runCommand (cmd : List Byte) (s : State) : Host.Outcome State Fault Refusal :=
  match decode cmd with
  | .ok i => exec i s
  | .error _ => .next (takeIllegal s)

/-- One step of the machine. -/
def step (s : State) : Host.Outcome State Fault Refusal :=
  match s.host with
  | [] => .refused .endOfStream
  | .loadFrame bytes :: _ => s.dropMove.loadFrame bytes
  | .pins answers :: _ => .next (s.dropMove.setPins answers)
  | .reset :: _ => .next s.dropMove.resetBlock
  | .cmdByte _ :: _ =>
    match s.nextCommand with
    | none => .refused .truncatedCommand
    | some cmd => runCommand cmd (s.advance cmd.length)

/-- The command whose bits are the low `nbits` bits of `w`, issued as the host's next move. -/
def State.withFetchWord (s : State) (nbits w : Nat) : State := s.issue (tableWordBytes nbits w)

end Sys2Proof.Machine
end

