-- ==== Sys2Proof/WellFormed.lean ====
section
/-! DEFINITION. What is well-formed. The record form of a command carries its bounds in its types
(spec/30_encoding.md R66: "No invariant is required of a range"), so every `Instr` is well-formed;
the byte form of a command is well-formed when a row of the opcode table accepts it (R71); a frame
the host loads is well-formed when it has at most 25 bytes (R78). -/

namespace Sys2Proof

/-- R66, R69: every value of every field is accepted, so no record form is ill-formed. One line per
constructor, so that a command added later has to be judged here. -/
def Instr.wellFormed : Instr → Bool
  | .decode _ => true
  | .rdch _ => true
  | .parchk _ => true
  | .ivel _ _ _ => true
  | .ipwm _ _ _ => true
  | .drive _ _ _ => true
  | .stepint _ => true

/-- One row of the opcode map (R71). -/
structure OpcodeRow where
  bytes : Nat
  mask : Nat
  pattern : Nat
  deriving DecidableEq, Repr

/-- The opcode map, in the order of R71. -/
def opcodeRows : List OpcodeRow :=
  [⟨1, 0xF7, 0x00⟩, ⟨2, 0xF0FF, 0x0001⟩, ⟨2, 0x00FF, 0x0002⟩, ⟨15, 0xE7, 0x03⟩,
   ⟨19, 0xE7, 0x04⟩, ⟨7, 0xE7, 0x05⟩, ⟨3, 0x0000FF, 0x000006⟩]

/-- The row of the opcode map that is a command's own (R71). -/
def Instr.opcodeRow : Instr → OpcodeRow
  | .decode _ => ⟨1, 0xF7, 0x00⟩
  | .rdch _ => ⟨2, 0xF0FF, 0x0001⟩
  | .parchk _ => ⟨2, 0x00FF, 0x0002⟩
  | .ivel _ _ _ => ⟨15, 0xE7, 0x03⟩
  | .ipwm _ _ _ => ⟨19, 0xE7, 0x04⟩
  | .drive _ _ _ => ⟨7, 0xE7, 0x05⟩
  | .stepint _ => ⟨3, 0x0000FF, 0x000006⟩

/-- A byte string as one integer, its first byte least significant (R60). -/
def littleEndian : List Byte → Nat
  | [] => 0
  | b :: bs => b.toNat + 256 * littleEndian bs

/-- R71: "a command is that operation and legal exactly when (command & mask) = match". -/
def OpcodeRow.accepts (r : OpcodeRow) (bs : List Byte) : Bool :=
  bs.length == r.bytes && littleEndian bs &&& r.mask == r.pattern

/-- The byte form of a command is well-formed when some row accepts it (R71). -/
def commandWellFormed (bs : List Byte) : Bool := opcodeRows.any (·.accepts bs)

/-- A `LOADFRAME` supplies `n` bytes "with 0 <= n <= 25" (R78). -/
def frameWellFormed (bs : List Byte) : Bool := bs.length ≤ 25

end Sys2Proof
end

