-- ==== Sys2Proof/Safety.lean ====
section
/-! DEFINITION. The terms claims use: what a response says, which state a command leaves alone, the
encodings the spec lists as illegal, the invariant of the machine, and the exact value of an `F`. -/

namespace Sys2Proof.Machine

/-- A run in which "nothing went wrong" ends with FLT = 0 (R183). -/
def State.clean (s : State) : Prop := s.flt = 0

/-- The last command was answered with this status code (R180). -/
def Responds (t : State) (code : BitVec 4) : Prop :=
  ∃ r, t.resp = some r ∧ r.status.code = code

/-- The last command was answered with this status code and this result (R64, R180). -/
def RespondsWith (t : State) (code : BitVec 4) (result : BitVec 32) : Prop :=
  ∃ r, t.resp = some r ∧ r.status.code = code ∧ r.result = result

/-- The command answers a next state with this status code and this result. -/
def Answers (i : Instr) (s : State) (code : BitVec 4) (result : BitVec 32) : Prop :=
  ∃ t, exec i s = .next t ∧ RespondsWith t code result

/-- CH and CHV are as before. -/
def SameBank (s t : State) : Prop := t.ch = s.ch ∧ t.chv = s.chv

/-- The pin registers, PINEV and the answers of the pin environment are as before. -/
def SamePins (s t : State) : Prop :=
  t.dirOut = s.dirOut ∧ t.stepOut = s.stepOut ∧ t.pinev = s.pinev ∧ t.pins = s.pins

/-- Every byte of FB reads as before, and FLEN is as before. -/
def SameFrame (s t : State) : Prop :=
  (∀ a, Memory.read t.fb a = Memory.read s.fb a) ∧ t.flen = s.flen

/-- The host's moves to come and cp are as before. -/
def SameHost (s t : State) : Prop := t.host = s.host ∧ t.cp = s.cp

/-- Everything but FLT, the response and the count of draws is as before. -/
def SameButAnswer (s t : State) : Prop :=
  SameBank s t ∧ SamePins s t ∧ SameFrame s t ∧ SameHost s t

/-- FLT gains exactly this bit (R25). -/
def SetsOnly (bit : Nat) (s t : State) : Prop :=
  t.flt.getLsbD bit = true ∧ ∀ j, j ≠ bit → t.flt.getLsbD j = s.flt.getLsbD j

/-- The values R211 and R212 give for reset. -/
def AtReset (s : State) : Prop :=
  s.chv = false ∧ s.dirOut = false ∧ s.stepOut = false ∧ s.flt = 0 ∧ s.pinev = [] ∧ s.flen = 0

/-- The length table of R61, by the OP field of the header. -/
def tableLength (h : Byte) : Nat := [1, 2, 2, 15, 19, 7, 3, 1].getD (h.toNat % 8) 0

/-- The illegal encodings, "complete list" (R69), over the bytes of one command. -/
def IllegalEncoding : List Byte → Prop
  | [] => False
  | h :: rest =>
    let op := h.toNat % 8
    let p0 := h.toNat / 8 % 2 = 1
    let p1 := h.toNat / 16 % 2 = 1
    op = 7 ∨ h.toNat / 32 ≠ 0 ∨ (op = 0 ∧ p1) ∨ ((op = 1 ∨ op = 2 ∨ op = 6) ∧ (p0 ∨ p1)) ∨
      (op = 1 ∧ ∃ b ∈ rest, b.toNat / 16 ≠ 0)

/-- The bytes of FB that hold a value are those at the indices below FLEN (R41), in the canonical
form of memory. -/
def FrameLoaded (s : State) : Prop :=
  s.fb.wf ∧ s.fb.map (·.1) = List.range s.flen.val

/-- `b i` is FB[i] for the payload indices 1 to 22 (R40). -/
def PayloadIs (s : State) (b : Nat → Byte) : Prop :=
  ∀ i, 1 ≤ i → i ≤ 22 → Memory.read s.fb i = some (b i)

/-- The channel value is inside the window, both ends included (R120, R130). -/
def Inside (chan : U16) (w : ChannelWindow) : Prop :=
  w.min.toNat ≤ chan.toNat ∧ chan.toNat ≤ w.max.toNat

/-- The channel value is in the closed interval [lo, hi] (R16). -/
def InDeadzone (lo hi : Nat) (chan : U16) : Prop := lo ≤ chan.toNat ∧ chan.toNat ≤ hi

/-- Step 3 of IPWM in integers: `pmin + (pmid - pmax) / (cmax - cmin) * (chan - cmin)`, the division
rounding toward zero (R130, R132). -/
def pwmFormula (chan : U16) (w : ChannelWindow) (r : PwmRange) : Int :=
  r.min.toInt + Int.tdiv (r.mid.toInt - r.max.toInt) ((w.max.toNat : Int) - w.min.toNat) *
    ((chan.toNat : Int) - w.min.toNat)

/-- PINEV is a sequence of pairs, a direction write and then a step write of the same level
(R157, R158 (a)). -/
def pinPairs : List PinEvent → Bool
  | [] => true
  | [_] => false
  | d :: t :: rest => d.pin == .dir && t.pin == .step && d.level == t.level && pinPairs rest

/-- The level of the last write to a pin, 0 where there is none (R28, R211). -/
def lastLevel (pin : Pin) (events : List PinEvent) : Bool :=
  events.foldl (fun last e => if e.pin = pin then e.level else last) false

/-- The pin registers show the last write to each pin, and the writes come in pairs. -/
def PinsTraced (s : State) : Prop :=
  pinPairs s.pinev = true ∧ s.dirOut = lastLevel .dir s.pinev ∧
    s.stepOut = lastLevel .step s.pinev

/-- A fault that was answered is in FLT (R25, R183), and a null error's result is 0 (R64). -/
def AnswerRecorded (s : State) : Prop :=
  ∀ r, s.resp = some r →
    (∀ f, r.status = .fault f → s.flt.getLsbD f.bit = true) ∧
    (r.status = .nullBuffer ∨ r.status = .nullRange ∨ r.status = .nullArgument → r.result = 0)

/-- The invariant of the machine. -/
def Inv (s : State) : Prop := FrameLoaded s ∧ PinsTraced s ∧ AnswerRecorded s

/-- The statuses of each command's own rule (R186, less the IllegalCmd of its encodings). -/
def allowedStatus : Instr → List Status
  | .decode _ => [.ok, .nullBuffer, .fault .shortBuffer]
  | .rdch _ => [.ok, .fault .chanInvalid]
  | .parchk _ => [.ok]
  | .ivel _ _ _ => [.ok, .nullRange, .fault .divZero]
  | .ipwm _ _ _ => [.ok, .nullRange, .fault .divZero, .fault .resultRange]
  | .drive _ _ _ => [.ok, .nullArgument, .pinError]
  | .stepint _ => [.ok]

/-- Neither a NaN nor an infinity. -/
def finiteF (w : F) : Bool :=
  match unpack w with
  | .fin _ _ _ => true
  | .nan => false
  | .inf _ => false

/-- The exact number a finite pattern stands for (R14). -/
def valueF (w : F) : ℚ :=
  match unpack w with
  | .fin neg m e => (if neg then -1 else 1) * (m : ℚ) * (2 : ℚ) ^ e
  | .nan => 0
  | .inf _ => 0

/-- `w` is the number `x` rounded once to binary32, to nearest, ties to even (R14): a number of
magnitude 2^128 - 2^103 or more goes to the infinity of its sign, any other to the finite pattern
nearest to it, and of two equally near ones to the one whose last bit is 0. -/
def RoundsTo (x : ℚ) (w : F) : Prop :=
  if (2 : ℚ) ^ 128 - 2 ^ 103 ≤ |x| then w = infinity (decide (x < 0))
  else finiteF w = true ∧ ∀ y, finiteF y = true →
    |valueF w - x| ≤ |valueF y - x| ∧
    (|valueF w - x| = |valueF y - x| → valueF y ≠ valueF w → w.getLsbD 0 = false)

end Sys2Proof.Machine
end

