-- ==== Sys2Proof/Certificates/Slice0/Obligations.lean ====
section
/-! DEFINITION. The statements for the provers. Each docstring names the rule of the spec it
formalises; a clause that rests on the model's own choice names the log entry. -/

open Sys2Proof Sys2Proof.Machine

/-! ### Encoding -/

/-- R60, R61, R63, R66, R67: encoding a command and decoding it gives the command back, and it is cut
off a longer string exactly. -/
def Obligations.EncodedCommandDecodesBack : Prop :=
  ∀ (i : Instr) (more : List Byte),
    splitCommand (encode i ++ more) = some (encode i, more) ∧ decode (encode i) = .ok i

/-- R71: a byte string is a given operation and legal exactly when its row's mask and match say so,
and the legal header bytes are those listed. -/
def Obligations.OpcodeMapDecidesLegality : Prop :=
  (∀ (bs : List Byte) (r : OpcodeRow), r ∈ opcodeRows →
    (r.accepts bs = true ↔ ∃ i, decode bs = .ok i ∧ i.opcodeRow = r)) ∧
  (∀ h : Byte, (∃ rest i, decode (h :: rest) = .ok i) ↔
    h.toNat ∈ [0x00, 0x08, 0x01, 0x02, 0x03, 0x0B, 0x13, 0x1B, 0x04, 0x0C, 0x14, 0x1C,
      0x05, 0x0D, 0x15, 0x1D, 0x06])

/-- R69: among the byte strings of the right length the illegal ones are exactly those listed, and
each of these raises IllegalCmd. -/
def Obligations.ListedEncodingsAreTheIllegalOnes : Prop :=
  ∀ (h : Byte) (rest : List Byte), rest.length + 1 = tableLength h →
    ((∃ i, decode (h :: rest) = .ok i) ↔ ¬ IllegalEncoding (h :: rest)) ∧
    (IllegalEncoding (h :: rest) →
      ∀ s, ∃ t, runCommand (h :: rest) s = .next t ∧ Responds t 8)

/-- R68: the bytes of a reference whose present bit is 0 do not change the record form: `cmin` and
`cmax` when P0 = 0, the output range of IVEL and IPWM when P1 = 0. -/
def Obligations.AbsentFieldsAreIgnored : Prop :=
  (∀ (h c0 c1 : Byte) (x y rest : List Byte), h.toNat / 8 % 2 = 0 → x.length = 4 → y.length = 4 →
    decode (h :: c0 :: c1 :: (x ++ rest)) = decode (h :: c0 :: c1 :: (y ++ rest))) ∧
  (∀ (h : Byte) (pre x y : List Byte), h.toNat / 16 % 2 = 0 → pre.length = 6 →
    x.length = y.length → decode (h :: (pre ++ x)) = decode (h :: (pre ++ y)))

/-- Words written out from the formats of R63 decode to the commands they stand for. -/
def Obligations.SpecWordsDecode : Prop :=
  decode [0x08] = .ok (.decode .present) ∧
  decode [0x01, 0x0D] = .ok (.rdch 13) ∧
  decode [0x02, 0xC0] = .ok (.parchk 0xC0) ∧
  decode [0x1B, 0x64, 0x01, 0x64, 0x00, 0x64, 0x04, 0x00, 0x00, 0x80, 0xBF, 0x00, 0x00, 0x80, 0x3F] =
    .ok (.ivel 356 (some ⟨100, 1124⟩) (some ⟨0xBF800000, 0x3F800000⟩)) ∧
  decode [0x0D, 0xDC, 0x05, 0xC8, 0x00, 0x78, 0x05] =
    .ok (.drive 1500 (some ⟨200, 1400⟩) .absent) ∧
  decode [0x06, 0x2C, 0x01] = .ok (.stepint 300)

/-! ### The step -/

/-- R65, R27: when the host's next bytes decode to a command, the step is `exec` of it, the bytes
taken off the host's moves and cp advanced by the command's length. -/
def Obligations.StepRunsDecodedCommand : Prop :=
  ∀ (s : State) (cmd : List Byte) (moves : List HostMove) (i : Instr),
    s.host = cmd.map .cmdByte ++ moves → decode cmd = .ok i →
    step s = exec i { s with host := moves, cp := s.cp + cmd.length }

/-- R65, R184: an illegal encoding is answered with IllegalCmd, FLT bit 0 is set, and nothing else of
the block changes. The bytes its opcode asks for are consumed (R61, R27); that the host's moves and cp
stand in State, where this shows, is the model's choice (log 1, log 2). -/
def Obligations.IllegalCommandSetsOnlyItsBit : Prop :=
  ∀ (s : State) (h : Byte) (rest : List Byte) (moves : List HostMove),
    s.host = (h :: rest).map .cmdByte ++ moves → rest.length + 1 = tableLength h →
    IllegalEncoding (h :: rest) →
    ∃ t, step s = .next t ∧ Responds t 8 ∧ SetsOnly 0 s t ∧ SameBank s t ∧ SamePins s t ∧
      SameFrame s t ∧ t.host = moves ∧ t.cp = s.cp + (rest.length + 1)

/-- R70: a stream that ends inside a command is refused. -/
def Obligations.TruncatedStreamIsRefused : Prop :=
  ∀ (s : State) (h : Byte) (rest : List Byte), s.host = (h :: rest).map .cmdByte →
    rest.length + 1 < tableLength h → step s = .refused .truncatedCommand

/-- R78, R41: LOADFRAME puts the bytes at their indices and their number into FLEN, and leaves the
block alone. -/
def Obligations.LoadFrameFillsBuffer : Prop :=
  ∀ (s : State) (bytes : List Byte) (moves : List HostMove),
    s.host = .loadFrame bytes :: moves → bytes.length ≤ 25 →
    ∃ t, step s = .next t ∧ t.flen.val = bytes.length ∧
      (∀ i, i < bytes.length → Memory.read t.fb i = bytes[i]?) ∧
      SameBank s t ∧ SamePins s t ∧ t.flt = s.flt ∧ t.host = moves ∧ t.cp = s.cp

/-- R78: PINS sets the two statuses the pin environment will answer, and nothing of the block. -/
def Obligations.PinsMoveSetsAnswers : Prop :=
  ∀ (s : State) (answers : PinAnswers) (moves : List HostMove), s.host = .pins answers :: moves →
    ∃ t, step s = .next t ∧ t.pins = answers ∧ SameBank s t ∧ SameFrame s t ∧
      t.dirOut = s.dirOut ∧ t.stepOut = s.stepOut ∧ t.pinev = s.pinev ∧ t.flt = s.flt ∧
      t.host = moves ∧ t.cp = s.cp

/-- R211, R212: the values reset gives, in the state after reset and after a RESET during a run,
which spends no answer of the pin environment. What CH and FB then hold is left open. -/
def Obligations.ResetGivesStatedValues : Prop :=
  AtReset State.reset ∧
  ∀ (s : State) (moves : List HostMove), s.host = .reset :: moves →
    ∃ t, step s = .next t ∧ AtReset t ∧ t.pins = s.pins ∧ t.host = moves

/-- R27, R61: a step that runs a command takes the bytes its opcode asks for off the host's moves and
adds their number to cp; a step that makes another host move leaves cp alone. -/
def Obligations.CommandAdvancesStream : Prop :=
  ∀ s t : State, step s = .next t →
    (∀ h moves, s.host = .cmdByte h :: moves →
      t.host = s.host.drop (tableLength h) ∧ t.cp = s.cp + tableLength h) ∧
    ((∀ h moves, s.host ≠ .cmdByte h :: moves) → t.host = s.host.tail ∧ t.cp = s.cp)

/-! ### Frame decoder -/

/-- R101: DECODE of a loaded buffer answers (OK, 0), sets CHV and gives every channel the value of
its row; pins, FLT, FB, FLEN and the host's side stay. -/
def Obligations.DecodeFillsBankFromTable : Prop :=
  ∀ (s : State) (b : Nat → Byte), PayloadIs s b → 23 ≤ s.flen.val →
    ∃ t, exec (.decode .present) s = .next t ∧ RespondsWith t 0 0 ∧ t.chv = true ∧
      SamePins s t ∧ SameFrame s t ∧ SameHost s t ∧ t.flt = s.flt ∧
      t.ch[0].toNat = ((b 1).toNat ||| (b 2).toNat <<< 8) &&& 0x7FF ∧
      t.ch[1].toNat = ((b 2).toNat >>> 3 ||| (b 3).toNat <<< 5) &&& 0x7FF ∧
      t.ch[2].toNat = ((b 3).toNat >>> 6 ||| (b 4).toNat <<< 2 ||| (b 5).toNat <<< 10) &&& 0x7FF ∧
      t.ch[3].toNat = ((b 5).toNat >>> 1 ||| (b 6).toNat <<< 7) &&& 0x7FF ∧
      t.ch[4].toNat = ((b 6).toNat >>> 4 ||| (b 7).toNat <<< 4) &&& 0x7FF ∧
      t.ch[5].toNat = ((b 7).toNat >>> 7 ||| (b 8).toNat <<< 1 ||| (b 9).toNat <<< 9) &&& 0x7FF ∧
      t.ch[6].toNat = ((b 9).toNat >>> 2 ||| (b 10).toNat <<< 6) &&& 0x7FF ∧
      t.ch[7].toNat = ((b 10).toNat >>> 5 ||| (b 11).toNat <<< 3) &&& 0x7FF ∧
      t.ch[8].toNat = ((b 12).toNat ||| (b 13).toNat <<< 8) &&& 0x7FF ∧
      t.ch[9].toNat = ((b 13).toNat >>> 3 ||| (b 14).toNat <<< 5) &&& 0x7FF ∧
      t.ch[10].toNat = ((b 14).toNat >>> 6 ||| (b 15).toNat <<< 2 ||| (b 16).toNat <<< 10) &&& 0x7FF ∧
      t.ch[11].toNat = ((b 16).toNat >>> 1 ||| (b 17).toNat <<< 7) &&& 0x7FF ∧
      t.ch[12].toNat = ((b 17).toNat >>> 4 ||| (b 18).toNat <<< 4) &&& 0x7FF ∧
      t.ch[13].toNat = ((b 18).toNat >>> 7 ||| (b 19).toNat <<< 1 ||| (b 20).toNat <<< 9) &&& 0x7FF ∧
      t.ch[14].toNat = ((b 20).toNat >>> 2 ||| (b 21).toNat <<< 6) &&& 0x7FF ∧
      t.ch[15].toNat = ((b 21).toNat >>> 5 ||| (b 22).toNat <<< 3) &&& 0x7FF

/-- R102: bit j of channel k is the bit of the payload with the same place in the stream, so every
bit of every payload byte is one channel bit. -/
def Obligations.DecodeWiresEveryPayloadBit : Prop :=
  ∀ (s : State) (b : Nat → Byte), PayloadIs s b → 23 ≤ s.flen.val →
    ∃ t, exec (.decode .present) s = .next t ∧
      (∀ (k : Fin 16) (j : Nat), j < 11 →
        t.ch[k].getLsbD j = (b (1 + (11 * k + j) / 8)).getLsbD ((11 * k + j) % 8)) ∧
      (∀ (k : Fin 16) (j i n : Nat), 1 ≤ i → i ≤ 22 → n < 8 → j < 11 →
        8 * (i - 1) + n = 11 * k + j → t.ch[k].getLsbD j = (b i).getLsbD n)

/-- R44: channel k is the field [11k+10 : 11k] of the one little-endian stream of the payload. -/
def Obligations.DecodeIsOneBitstream : Prop :=
  ∀ (s : State) (b : Nat → Byte), PayloadIs s b → 23 ≤ s.flen.val →
    ∃ t, exec (.decode .present) s = .next t ∧ ∀ k : Fin 16,
      t.ch[k].toNat =
        (∑ i ∈ Finset.Icc 1 22, (b i).toNat * 2 ^ (8 * (i - 1))) / 2 ^ (11 * k.val) % 2 ^ 11

/-- R103: DECODE of an absent buffer answers (NullBuffer, 0) and changes no state. -/
def Obligations.DecodeWithoutBuffer : Prop :=
  ∀ s : State, ∃ t, exec (.decode .absent) s = .next t ∧ RespondsWith t 1 0 ∧
    SameButAnswer s t ∧ t.flt = s.flt

/-- R104: with FLEN < 23 DECODE raises ShortBuffer and clears CHV; with FLEN of 23 or more it answers
the same whatever the rest of the state and of the frame is, but for the payload. The result of the
fault and CH after it are left open. -/
def Obligations.DecodeLooksAtLengthAndPayloadOnly : Prop :=
  (∀ s : State, s.flen.val < 23 →
    ∃ t, exec (.decode .present) s = .next t ∧ Responds t 9 ∧ SetsOnly 1 s t ∧ t.chv = false ∧
      SamePins s t ∧ SameFrame s t ∧ SameHost s t) ∧
  (∀ s s' t : State, 23 ≤ s.flen.val → 23 ≤ s'.flen.val →
    (∀ i, 1 ≤ i → i ≤ 22 → Memory.read s'.fb i = Memory.read s.fb i) →
    exec (.decode .present) s = .next t →
    ∃ t', exec (.decode .present) s' = .next t' ∧ t'.ch = t.ch ∧ t'.chv = t.chv ∧
      t'.resp = t.resp)

/-- R106: RDCH is the two bytes 0x01 and k; it answers the channel, at most 2047, when CHV = 1, and
raises ChanInvalid when CHV = 0; it changes nothing else. -/
def Obligations.RdchReadsBank : Prop :=
  (∀ (h b : Byte) (k : BitVec 4), decode [h, b] = .ok (.rdch k) ↔ h = 1 ∧ b.toNat = k.toNat) ∧
  ∀ (k : BitVec 4) (s : State),
    (s.chv = true → ∃ t r, exec (.rdch k) s = .next t ∧ RespondsWith t 0 r ∧
      r.toNat = (s.ch[k.toNat]).toNat ∧ r.toNat ≤ 2047 ∧ SameButAnswer s t ∧ t.flt = s.flt) ∧
    (s.chv = false → ∃ t, exec (.rdch k) s = .next t ∧ Responds t 10 ∧ SetsOnly 2 s t ∧
      SameButAnswer s t)

/-- R108: PARCHK is the two bytes 0x02 and the flag byte; it answers 1 exactly when the byte is at
most 0x3F, else 0, and changes nothing. -/
def Obligations.ParchkChecksTopBits : Prop :=
  (∀ h b flag : Byte, decode [h, b] = .ok (.parchk flag) ↔ h = 2 ∧ b = flag) ∧
  ∀ (flag : Byte) (s : State), ∃ t r, exec (.parchk flag) s = .next t ∧ RespondsWith t 0 r ∧
    (flag.toNat ≤ 0x3F → r = 1) ∧ (0x3F < flag.toNat → r = 0) ∧ SameButAnswer s t ∧
    t.flt = s.flt

/-- The document's literal vector (S1): after DECODE of a frame whose payload begins 0x01, 0xFF,
RDCH 0 answers 1793. -/
def Obligations.DecodeThenRdchLiteral : Prop :=
  ∀ s : State, FrameLoaded s → 23 ≤ s.flen.val → Memory.read s.fb 1 = some 0x01 →
    Memory.read s.fb 2 = some 0xFF →
    ∃ t, exec (.decode .present) s = .next t ∧ Answers (.rdch 0) t 0 1793

/-! ### Channel mapper -/

/-- R122: the four binary32 operations of step 4 in their order, with the integer differences
converted; and the other steps of R120. `nan` is the NaN an operation answers when its result is one;
which NaN is a free value. -/
def Obligations.IvelInterpolates : Prop :=
  ∀ (chan : U16) (w : ChannelWindow) (v : VelocityRange) (s : State),
    ¬ (chan = w.min ∧ w.max = w.min ∧ ¬ InDeadzone 950 1050 chan) →
    ∃ t nan r, exec (.ivel chan (some w) (some v)) s = .next t ∧ isNaN nan = true ∧
      RespondsWith t 0 r ∧ SameButAnswer s t ∧ t.flt = s.flt ∧
      (chan.toNat < w.min.toNat → r = v.min) ∧
      (w.min.toNat ≤ chan.toNat → w.max.toNat < chan.toNat → r = v.max) ∧
      (Inside chan w → InDeadzone 950 1050 chan →
        r = fdiv nan (fadd nan v.min v.max) 0x40000000) ∧
      (Inside chan w → ¬ InDeadzone 950 1050 chan →
        r = fadd nan v.min
          (fmul nan (fdiv nan (fsub nan v.max v.min) (i2f ((w.max.toNat : Int) - w.min.toNat)))
            (i2f ((chan.toNat : Int) - w.min.toNat))))

/-- R123: steps 1 and 2 return the operand's pattern unchanged; in steps 3 and 4 a NaN operand gives
a NaN, and so do opposite infinities in the midpoint. -/
def Obligations.IvelPassesOperandsAndNaNs : Prop :=
  ∀ (chan : U16) (w : ChannelWindow) (v : VelocityRange) (s : State),
    (chan.toNat < w.min.toNat → Answers (.ivel chan (some w) (some v)) s 0 v.min) ∧
    (w.min.toNat ≤ chan.toNat → w.max.toNat < chan.toNat →
      Answers (.ivel chan (some w) (some v)) s 0 v.max) ∧
    (Inside chan w → (InDeadzone 950 1050 chan ∨ w.min ≠ w.max) →
      (isNaN v.min = true ∨ isNaN v.max = true ∨
        (InDeadzone 950 1050 chan ∧ v.min = 0x7F800000 ∧ v.max = 0xFF800000)) →
      ∃ r, Answers (.ivel chan (some w) (some v)) s 0 r ∧ isNaN r = true)

/-- R121: with either range absent IVEL answers (NullRange, +0.0) and changes no state, whatever the
other operands are. -/
def Obligations.IvelWithoutRange : Prop :=
  ∀ (chan : U16) (c : Option ChannelWindow) (v : Option VelocityRange) (s : State),
    c = none ∨ v = none →
    ∃ t, exec (.ivel chan c v) s = .next t ∧ RespondsWith t 2 0 ∧ SameButAnswer s t ∧
      t.flt = s.flt

/-- R120, R124: IVEL raises DivZero exactly when chan = cmin = cmax outside 950..1050 (the spec marks
"exactly when" as its own inference); FLT bit 3 is then set and nothing else changes. The result is
left open. -/
def Obligations.IvelDivZeroExactly : Prop :=
  ∀ (chan : U16) (w : ChannelWindow) (v : VelocityRange) (s : State),
    ∃ t, exec (.ivel chan (some w) (some v)) s = .next t ∧ SameButAnswer s t ∧
      (Responds t 11 ↔ chan = w.min ∧ w.max = w.min ∧ ¬ InDeadzone 950 1050 chan) ∧
      (Responds t 11 → SetsOnly 3 s t)

/-- R125 (e): with an inverted window IVEL answers vmin below cmin and vmax from cmin on. -/
def Obligations.IvelInvertedWindow : Prop :=
  ∀ (chan : U16) (w : ChannelWindow) (v : VelocityRange) (s : State),
    w.max.toNat < w.min.toNat →
    Answers (.ivel chan (some w) (some v)) s 0 (if chan.toNat < w.min.toNat then v.min else v.max)

/-- R133 with the policy of R130: the deadzone value is (pmin + pmax) / 2, the slope numerator is
(pmid - pmax), both divisions rounding toward zero; nothing else of the state changes. That the
formula is integer and rounds toward zero is PWM_ARITH = int_trunc (R132), the choice of log 10. -/
def Obligations.IpwmFollowsFormula : Prop :=
  ∀ (chan : U16) (w : ChannelWindow) (r : PwmRange) (s : State),
    (chan.toNat < w.min.toNat → Answers (.ipwm chan (some w) (some r)) s 0 r.min) ∧
    (w.min.toNat ≤ chan.toNat → w.max.toNat < chan.toNat →
      Answers (.ipwm chan (some w) (some r)) s 0 r.max) ∧
    (Inside chan w → InDeadzone 995 1005 chan →
      ∃ x, Answers (.ipwm chan (some w) (some r)) s 0 x ∧
        x.toInt = Int.tdiv (r.min.toInt + r.max.toInt) 2) ∧
    (Inside chan w → ¬ InDeadzone 995 1005 chan → w.min ≠ w.max →
      -2 ^ 31 ≤ pwmFormula chan w r → pwmFormula chan w r ≤ 2 ^ 31 - 1 →
      ∃ x, Answers (.ipwm chan (some w) (some r)) s 0 x ∧ x.toInt = pwmFormula chan w r) ∧
    (∀ t, exec (.ipwm chan (some w) (some r)) s = .next t → SameButAnswer s t ∧
      (Responds t 0 → t.flt = s.flt))

/-- R135 with R130 and R132: IPWM raises ResultRange exactly when step 3 answers outside the s32
range; FLT bit 4 is then set and nothing else changes. The result is left open. Which numbers step 3
answers rests on PWM_ARITH = int_trunc, the choice of log 10. -/
def Obligations.IpwmResultRangeExactly : Prop :=
  ∀ (chan : U16) (w : ChannelWindow) (r : PwmRange) (s : State),
    ∃ t, exec (.ipwm chan (some w) (some r)) s = .next t ∧ SameButAnswer s t ∧
      (Responds t 12 ↔ Inside chan w ∧ ¬ InDeadzone 995 1005 chan ∧ w.min ≠ w.max ∧
        (pwmFormula chan w r < -2 ^ 31 ∨ 2 ^ 31 - 1 < pwmFormula chan w r)) ∧
      (Responds t 12 → SetsOnly 4 s t)

/-- R134: IPWM raises DivZero exactly when chan = cmin = cmax outside 995..1005; FLT bit 3 is then
set and nothing else changes. The result is left open. -/
def Obligations.IpwmDivZeroExactly : Prop :=
  ∀ (chan : U16) (w : ChannelWindow) (r : PwmRange) (s : State),
    ∃ t, exec (.ipwm chan (some w) (some r)) s = .next t ∧ SameButAnswer s t ∧
      (Responds t 11 ↔ chan = w.min ∧ w.max = w.min ∧ ¬ InDeadzone 995 1005 chan) ∧
      (Responds t 11 → SetsOnly 3 s t)

/-- R131: with either range absent IPWM answers (NullRange, 0) and changes no state. -/
def Obligations.IpwmWithoutRange : Prop :=
  ∀ (chan : U16) (c : Option ChannelWindow) (r : Option PwmRange) (s : State),
    c = none ∨ r = none →
    ∃ t, exec (.ipwm chan c r) s = .next t ∧ RespondsWith t 2 0 ∧ SameButAnswer s t ∧
      t.flt = s.flt

/-- R136 (c): with pmid < pmax the output of step 3 never exceeds pmin and does not rise as the
channel value rises, in the arithmetic PWM_ARITH = int_trunc (R132), the choice of log 10. -/
def Obligations.IpwmFallsInUsualOrder : Prop :=
  ∀ (chan chan' : U16) (w : ChannelWindow) (r : PwmRange) (s : State) (x x' : S32),
    r.mid.toInt < r.max.toInt → Inside chan w → Inside chan' w → ¬ InDeadzone 995 1005 chan →
    ¬ InDeadzone 995 1005 chan' → chan.toNat ≤ chan'.toNat →
    Answers (.ipwm chan (some w) (some r)) s 0 x →
    Answers (.ipwm chan' (some w) (some r)) s 0 x' →
    x.toInt ≤ r.min.toInt ∧ x'.toInt ≤ x.toInt

/-! ### Step sequencer -/

/-- R151, R155, R157: DRIVE with both operands present is forward exactly when chan > cmax, whatever
cmin is; it writes the direction pin and then the step pin, both at that level; it answers OK exactly
when the two statuses add to 0 in integers, else PinError with the low 32 bits of the sum, and sets
no FLT bit. -/
def Obligations.DriveWritesBothPins : Prop :=
  ∀ (chan : U16) (w : ChannelWindow) (s : State),
    let fwd := decide (w.max.toNat < chan.toNat)
    let sum := s.pins.dir.toInt + s.pins.step.toInt
    (∃ t, exec (.drive chan (some w) .present) s = .next t ∧
      t.pinev = s.pinev ++ [⟨.dir, fwd⟩, ⟨.step, fwd⟩] ∧ t.dirOut = fwd ∧ t.stepOut = fwd ∧
      RespondsWith t (if sum = 0 then 0 else 4) (s.pins.dir + s.pins.step) ∧
      SameBank s t ∧ SameFrame s t ∧ SameHost s t ∧ t.flt = s.flt) ∧
    ∀ cmin, exec (.drive chan (some ⟨cmin, w.max⟩) .present) s =
      exec (.drive chan (some w) .present) s

/-- R156: with the motor or the range absent DRIVE answers (NullArgument, 0), makes no pin write and
changes no state. That such a DRIVE leaves the answers of the pin environment for a later one is the
model's choice (log 4). -/
def Obligations.DriveWithoutOperand : Prop :=
  ∀ (chan : U16) (c : Option ChannelWindow) (motor : Presence) (s : State),
    c = none ∨ motor = .absent →
    ∃ t, exec (.drive chan c motor) s = .next t ∧ RespondsWith t 3 0 ∧ SameButAnswer s t ∧
      t.flt = s.flt

/-- R158 (b): a second DRIVE of the same direction adds two events and changes neither pin. -/
def Obligations.DriveRepeatMakesNoEdge : Prop :=
  ∀ (chan chan' : U16) (w w' : ChannelWindow) (s t u : State),
    exec (.drive chan (some w) .present) s = .next t →
    exec (.drive chan' (some w') .present) t = .next u →
    (w.max.toNat < chan.toNat ↔ w'.max.toNat < chan'.toNat) →
    u.dirOut = t.dirOut ∧ u.stepOut = t.stepOut ∧ u.pinev.length = t.pinev.length + 2

/-! ### Speed converter -/

/-- R170, R171: STEPINT is the byte 0x06 and rpm, low byte first; it answers +0.0 for rpm = 0, else
60_000_000 / (200 * rpm) rounded once, and changes nothing. -/
def Obligations.StepintRoundsQuotient : Prop :=
  (∀ (h a b : Byte) (rpm : U16), decode [h, a, b] = .ok (.stepint rpm) ↔
    h = 6 ∧ rpm.toNat = a.toNat + 256 * b.toNat) ∧
  ∀ (rpm : U16) (s : State), ∃ t r, exec (.stepint rpm) s = .next t ∧ RespondsWith t 0 r ∧
    (rpm = 0 → r = 0) ∧ (rpm ≠ 0 → RoundsTo (60000000 / (200 * rpm.toNat)) r) ∧
    SameButAnswer s t ∧ t.flt = s.flt

/-- R172 (b): every result for rpm > 0 is finite, positive and at most 300000, the value of rpm = 1. -/
def Obligations.StepintIsPositiveNormal : Prop :=
  ∀ (rpm : U16) (s : State) (r : F), rpm ≠ 0 → Answers (.stepint rpm) s 0 r →
    finiteF r = true ∧ 4 ≤ valueF r ∧ valueF r ≤ 300000

/-! ### The type F -/

/-- R14: the sum and the difference of two finite values are the exact ones rounded once, to nearest,
ties to even. Binary32 itself is general knowledge the spec marks as such (log 9). -/
def Obligations.FaddAndFsubRoundOnce : Prop :=
  ∀ nan a b : F, finiteF a = true → finiteF b = true →
    RoundsTo (valueF a + valueF b) (fadd nan a b) ∧
    RoundsTo (valueF a - valueF b) (fsub nan a b)

/-- R14: the product of two finite values is the exact one rounded once (log 9). -/
def Obligations.FmulRoundsOnce : Prop :=
  ∀ nan a b : F, finiteF a = true → finiteF b = true →
    RoundsTo (valueF a * valueF b) (fmul nan a b)

/-- R14: the quotient of two finite values, the second not 0, is the exact one rounded once (log 9). -/
def Obligations.FdivRoundsOnce : Prop :=
  ∀ nan a b : F, finiteF a = true → finiteF b = true → valueF b ≠ 0 →
    RoundsTo (valueF a / valueF b) (fdiv nan a b)

/-- R14: `i2f` rounds the integer once, and is exact below 2^24 (log 9). -/
def Obligations.IntegerConversionRoundsOnce : Prop :=
  ∀ n : Int, RoundsTo n (i2f n) ∧ (n.natAbs < 2 ^ 24 → valueF (i2f n) = n)

/-! ### The whole machine -/

/-- The state after reset meets the invariant. -/
def Obligations.ResetMeetsInvariant : Prop := Inv State.reset

/-- Every step from a state that meets the invariant answers one that does: FB holds exactly the
bytes below FLEN in canonical form (R41), the pin registers and PINEV agree, with direction and step
writes in pairs of one level (R28, R157, R158), every fault answered is in FLT (R25), and the result
of a null error is 0 (R64). -/
def Obligations.StepKeepsTheInvariant : Prop :=
  ∀ s t : State, Inv s → step s = .next t → Inv t

/-- R42: no step from a state that meets the invariant reads a byte that holds no value, so no step
stops with a fault. -/
def Obligations.NoStepStopsWithFault : Prop :=
  ∀ (s : State) (f : Fault), Inv s → step s ≠ .fault f

/-- R64, R186: every command answers one response, with a status of its row of the table, and leaves
the host's side alone. -/
def Obligations.EveryCommandAnswersAListedStatus : Prop :=
  ∀ (i : Instr) (s : State), FrameLoaded s →
    ∃ t r, exec i s = .next t ∧ t.resp = some r ∧ r.status ∈ allowedStatus i ∧ SameHost s t

/-- R25: a command sets the FLT bit of the fault it answers and no other, and clears none; a host
move other than RESET leaves FLT alone, RESET clears it. FLT is not read: with any other FLT before,
a command, an illegal one too, and a host move do the same in every field but FLT. -/
def Obligations.FltGainsTheAnsweredFault : Prop :=
  (∀ s t : State, step s = .next t →
    (∀ h moves, s.host = .cmdByte h :: moves → ∃ r, t.resp = some r ∧
      ∀ j, t.flt.getLsbD j = (s.flt.getLsbD j || decide (r.status.code.toNat = 8 + j))) ∧
    ((∀ h moves, s.host ≠ .cmdByte h :: moves) → (∀ moves, s.host ≠ .reset :: moves) →
      t.flt = s.flt) ∧
    (∀ moves, s.host = .reset :: moves → t.flt = 0)) ∧
  (∀ (i : Instr) (s t : State) (before : BitVec 5), exec i s = .next t →
    ∃ later, exec i { s with flt := before } = .next { t with flt := later }) ∧
  ∀ (s t : State) (before : BitVec 5), step s = .next t →
    ∃ later, step { s with flt := before } = .next { t with flt := later }

/-- R22, R105 (f): the bank is written only by DECODE with a buffer, and read only by RDCH. A command
other than these two carries any bank through, and is the same in every other field; DECODE with a
buffer answers the same next state whatever the bank held. -/
def Obligations.BankUsedOnlyByDecodeAndRdch : Prop :=
  ∀ (i : Instr) (s t : State), exec i s = .next t →
    (i ≠ .decode .present → SameBank s t) ∧
    (i ≠ .decode .present → (∀ k, i ≠ .rdch k) → ∀ (bank : Bank) (valid : Bool),
      exec i { s with ch := bank, chv := valid } = .next { t with ch := bank, chv := valid }) ∧
    (i = .decode .present → ∀ (bank : Bank) (valid : Bool),
      exec i { s with ch := bank, chv := valid } = .next t)

/-- R28, R32: only DRIVE with both operands writes the pins, and PINEV only grows at its end until
the next RESET. That the answers of the pin environment too stay until a pin write is the model's
choice for R78's words "the next DRIVE" (log 4). -/
def Obligations.PinsWrittenOnlyByDrive : Prop :=
  (∀ (i : Instr) (s t : State), exec i s = .next t →
    (∀ chan w, i ≠ .drive chan (some w) .present) → SamePins s t) ∧
  ∀ s t : State, step s = .next t → (∀ moves, s.host ≠ .reset :: moves) →
    ∃ events, t.pinev = s.pinev ++ events

/-- R43: no command writes FB or FLEN. -/
def Obligations.NoCommandWritesFrame : Prop :=
  ∀ (i : Instr) (s t : State), exec i s = .next t → t.fb = s.fb ∧ SameFrame s t

/-- R78: a DRIVE with both operands uses up the two answers of the pin environment, so that a second
one with no PINS between them is answered (OK, 0). That the answers are two numbers in State, each
spent by the write it answers, is the model's choice (log 4). -/
def Obligations.DriveUsesUpThePinAnswers : Prop :=
  ∀ (chan chan' : U16) (w w' : ChannelWindow) (s : State),
    ∃ t u, exec (.drive chan (some w) .present) s = .next t ∧ t.pins = ⟨0, 0⟩ ∧
      exec (.drive chan' (some w') .present) t = .next u ∧ RespondsWith u 0 0 ∧ u.pins = ⟨0, 0⟩
end

