-- ==== Sys2Proof/Laws/Decode.lean ====
section
/-! SUPPORT. The fields of a command as numbers, the lengths of commands, cutting one off the host's moves, and the lengths the encoder
writes (spec/30_encoding.md R61, R70). -/

namespace Sys2Proof

/-! ### Fields -/

/-- Two byte strings put together, as a number. -/
theorem toNat_append_bytes {n : Nat} (hi : BitVec n) (lo : Byte) :
    (hi ++ lo).toNat = hi.toNat * 256 + lo.toNat := by
  rw [BitVec.toNat_append, Nat.shiftLeft_eq, Nat.mul_comm, ← Nat.two_pow_add_eq_or_of_lt lo.isLt]

/-- A 16-bit field is its low byte plus 256 times its high byte (R60). -/
theorem u16At_toNat (lo hi : Byte) : (u16At lo hi).toNat = lo.toNat + 256 * hi.toNat := by
  have := toNat_append_bytes hi lo
  rw [Nat.add_comm, Nat.mul_comm]
  exact this

/-- A 32-bit field from its bytes (R60). -/
theorem u32At_toNat (b0 b1 b2 b3 : Byte) : (u32At b0 b1 b2 b3).toNat =
    b0.toNat + 256 * (b1.toNat + 256 * (b2.toNat + 256 * b3.toNat)) := by
  have h1 := toNat_append_bytes ((b3 ++ b2) ++ b1) b0
  have h2 := toNat_append_bytes (b3 ++ b2) b1
  have h3 := toNat_append_bytes b3 b2
  have h : (u32At b0 b1 b2 b3).toNat = (((b3 ++ b2) ++ b1) ++ b0).toNat := rfl
  omega

/-- A byte of a field, as a number. -/
theorem byteOf_toNat {n : Nat} (v : BitVec n) (k : Nat) :
    (v.extractLsb' k 8).toNat = v.toNat / 2 ^ k % 256 := by
  simp [BitVec.extractLsb'_toNat, Nat.shiftRight_eq_div_pow]

/-- The bytes of a 16-bit field put together again. -/
theorem u16At_bytes (v : U16) : u16At (v.extractLsb' 0 8) (v.extractLsb' 8 8) = v := by
  apply BitVec.eq_of_toNat_eq
  rw [u16At_toNat, byteOf_toNat, byteOf_toNat]
  omega

/-- The bytes of a 32-bit field put together again. -/
theorem u32At_bytes (v : BitVec 32) :
    u32At (v.extractLsb' 0 8) (v.extractLsb' 8 8) (v.extractLsb' 16 8) (v.extractLsb' 24 8) = v := by
  apply BitVec.eq_of_toNat_eq
  rw [u32At_toNat, byteOf_toNat, byteOf_toNat, byteOf_toNat, byteOf_toNat]
  omega
/-- The parts of a header, from the header as a number (R61). -/
theorem header_parts (h : Byte) :
    headerOp h = Op.ofField (h.toNat % 8) ∧ (headerP0 h = true ↔ h.toNat / 8 % 2 = 1) ∧
      (headerP1 h = true ↔ h.toNat / 16 % 2 = 1) ∧ (headerRsv h = 0 ↔ h.toNat / 32 = 0) := by
  revert h
  decide

/-! ### Lengths -/

theorem commandLength_pos (h : Byte) : 0 < commandLength h := by
  unfold commandLength
  cases headerOp h <;> decide

/-- R61's table of lengths. -/
theorem commandLength_eq (h : Byte) : commandLength h = Machine.tableLength h := by
  revert h
  decide

/-- The decoder accepts only a string of the length its header gives (R61, R65). -/
theorem decode_ok_length {bs : List Byte} {i : Instr} (h : decode bs = .ok i) :
    ∃ hd rest, bs = hd :: rest ∧ bs.length = commandLength hd := by
  cases bs with
  | nil => cases h
  | cons hd rest =>
    refine ⟨hd, rest, rfl, ?_⟩
    by_contra hne
    have : rest.length + 1 ≠ commandLength hd := by simpa using hne
    simp [decode, this] at h

/-- The first command of a string that starts with a whole command is that command. -/
theorem splitCommand_append (hd : Byte) (rest more : List Byte)
    (h : rest.length + 1 = commandLength hd) :
    splitCommand (hd :: rest ++ more) = some (hd :: rest, more) := by
  have h1 : ¬ (hd :: (rest ++ more)).length < commandLength hd := by
    simp only [List.length_cons, List.length_append]; omega
  rw [List.cons_append, splitCommand, if_neg h1, ← h]
  simp

end Sys2Proof

namespace Sys2Proof.Machine

theorem leadingBytes_append (bs : List Byte) (moves : List HostMove) :
    leadingBytes (bs.map .cmdByte ++ moves) = bs ++ leadingBytes moves := by
  induction bs with
  | nil => rfl
  | cons b bs ih => simp [leadingBytes, ih]

/-- The next command of a host that issues a whole command first is that command. -/
theorem State.nextCommand_of_host {s : State} {hd : Byte} {rest : List Byte}
    {moves : List HostMove} (hs : s.host = (hd :: rest).map .cmdByte ++ moves)
    (h : rest.length + 1 = commandLength hd) : s.nextCommand = some (hd :: rest) := by
  rw [State.nextCommand, hs, leadingBytes_append, splitCommand_append hd rest _ h]

/-- One step of a host that issues a whole command first runs that command. -/
theorem step_of_host {s : State} {hd : Byte} {rest : List Byte} {moves : List HostMove}
    (hs : s.host = (hd :: rest).map .cmdByte ++ moves) (h : rest.length + 1 = commandLength hd) :
    step s = runCommand (hd :: rest) (s.advance (rest.length + 1)) := by
  have hn := State.nextCommand_of_host hs h
  unfold step
  split
  · simp_all
  · simp_all
  · simp_all
  · simp_all
  · rw [hn]; rfl

end Sys2Proof.Machine
end

