-- ==== Sys2Proof/Laws/State.lean ====
section
/-! SUPPORT. One lemma per field of State and update of it: what the field holds after the update. -/

namespace Sys2Proof.Machine

section
variable (s : State)

/-! `State.respond` -/

@[simp] theorem State.respond_ch (st : Status) (r : BitVec 32) : (s.respond st r).ch = s.ch := rfl
@[simp] theorem State.respond_chv (st : Status) (r : BitVec 32) : (s.respond st r).chv = s.chv := rfl
@[simp] theorem State.respond_dirOut (st : Status) (r : BitVec 32) : (s.respond st r).dirOut = s.dirOut := rfl
@[simp] theorem State.respond_stepOut (st : Status) (r : BitVec 32) : (s.respond st r).stepOut = s.stepOut := rfl
@[simp] theorem State.respond_flt (st : Status) (r : BitVec 32) : (s.respond st r).flt = s.flt := rfl
@[simp] theorem State.respond_pinev (st : Status) (r : BitVec 32) : (s.respond st r).pinev = s.pinev := rfl
@[simp] theorem State.respond_fb (st : Status) (r : BitVec 32) : (s.respond st r).fb = s.fb := rfl
@[simp] theorem State.respond_flen (st : Status) (r : BitVec 32) : (s.respond st r).flen = s.flen := rfl
@[simp] theorem State.respond_pins (st : Status) (r : BitVec 32) : (s.respond st r).pins = s.pins := rfl
@[simp] theorem State.respond_host (st : Status) (r : BitVec 32) : (s.respond st r).host = s.host := rfl
@[simp] theorem State.respond_cp (st : Status) (r : BitVec 32) : (s.respond st r).cp = s.cp := rfl
@[simp] theorem State.respond_resp (st : Status) (r : BitVec 32) : (s.respond st r).resp = some ⟨st, r⟩ := rfl
@[simp] theorem State.respond_draws (st : Status) (r : BitVec 32) : (s.respond st r).draws = s.draws := rfl

/-! `State.raise` -/

@[simp] theorem State.raise_ch (f : SpecFault) : (s.raise f).ch = s.ch := rfl
@[simp] theorem State.raise_chv (f : SpecFault) : (s.raise f).chv = s.chv := rfl
@[simp] theorem State.raise_dirOut (f : SpecFault) : (s.raise f).dirOut = s.dirOut := rfl
@[simp] theorem State.raise_stepOut (f : SpecFault) : (s.raise f).stepOut = s.stepOut := rfl
@[simp] theorem State.raise_flt (f : SpecFault) : (s.raise f).flt = setFaultBit s.flt f := rfl
@[simp] theorem State.raise_pinev (f : SpecFault) : (s.raise f).pinev = s.pinev := rfl
@[simp] theorem State.raise_fb (f : SpecFault) : (s.raise f).fb = s.fb := rfl
@[simp] theorem State.raise_flen (f : SpecFault) : (s.raise f).flen = s.flen := rfl
@[simp] theorem State.raise_pins (f : SpecFault) : (s.raise f).pins = s.pins := rfl
@[simp] theorem State.raise_host (f : SpecFault) : (s.raise f).host = s.host := rfl
@[simp] theorem State.raise_cp (f : SpecFault) : (s.raise f).cp = s.cp := rfl
@[simp] theorem State.raise_resp (f : SpecFault) : (s.raise f).resp = some ⟨.fault f, Config.anyResult s.draws⟩ := rfl
@[simp] theorem State.raise_draws (f : SpecFault) : (s.raise f).draws = s.draws + 1 := rfl

/-! `State.countDraw` -/

@[simp] theorem State.countDraw_ch : (s.countDraw).ch = s.ch := rfl
@[simp] theorem State.countDraw_chv : (s.countDraw).chv = s.chv := rfl
@[simp] theorem State.countDraw_dirOut : (s.countDraw).dirOut = s.dirOut := rfl
@[simp] theorem State.countDraw_stepOut : (s.countDraw).stepOut = s.stepOut := rfl
@[simp] theorem State.countDraw_flt : (s.countDraw).flt = s.flt := rfl
@[simp] theorem State.countDraw_pinev : (s.countDraw).pinev = s.pinev := rfl
@[simp] theorem State.countDraw_fb : (s.countDraw).fb = s.fb := rfl
@[simp] theorem State.countDraw_flen : (s.countDraw).flen = s.flen := rfl
@[simp] theorem State.countDraw_pins : (s.countDraw).pins = s.pins := rfl
@[simp] theorem State.countDraw_host : (s.countDraw).host = s.host := rfl
@[simp] theorem State.countDraw_cp : (s.countDraw).cp = s.cp := rfl
@[simp] theorem State.countDraw_resp : (s.countDraw).resp = s.resp := rfl
@[simp] theorem State.countDraw_draws : (s.countDraw).draws = s.draws + 1 := rfl

/-! `State.setBank` -/

@[simp] theorem State.setBank_ch (b : Bank) : (s.setBank b).ch = b := rfl
@[simp] theorem State.setBank_chv (b : Bank) : (s.setBank b).chv = true := rfl
@[simp] theorem State.setBank_dirOut (b : Bank) : (s.setBank b).dirOut = s.dirOut := rfl
@[simp] theorem State.setBank_stepOut (b : Bank) : (s.setBank b).stepOut = s.stepOut := rfl
@[simp] theorem State.setBank_flt (b : Bank) : (s.setBank b).flt = s.flt := rfl
@[simp] theorem State.setBank_pinev (b : Bank) : (s.setBank b).pinev = s.pinev := rfl
@[simp] theorem State.setBank_fb (b : Bank) : (s.setBank b).fb = s.fb := rfl
@[simp] theorem State.setBank_flen (b : Bank) : (s.setBank b).flen = s.flen := rfl
@[simp] theorem State.setBank_pins (b : Bank) : (s.setBank b).pins = s.pins := rfl
@[simp] theorem State.setBank_host (b : Bank) : (s.setBank b).host = s.host := rfl
@[simp] theorem State.setBank_cp (b : Bank) : (s.setBank b).cp = s.cp := rfl
@[simp] theorem State.setBank_resp (b : Bank) : (s.setBank b).resp = s.resp := rfl
@[simp] theorem State.setBank_draws (b : Bank) : (s.setBank b).draws = s.draws := rfl

/-! `State.loseBank` -/

@[simp] theorem State.loseBank_ch : (s.loseBank).ch = anyBank s.draws := rfl
@[simp] theorem State.loseBank_chv : (s.loseBank).chv = s.chv := rfl
@[simp] theorem State.loseBank_dirOut : (s.loseBank).dirOut = s.dirOut := rfl
@[simp] theorem State.loseBank_stepOut : (s.loseBank).stepOut = s.stepOut := rfl
@[simp] theorem State.loseBank_flt : (s.loseBank).flt = s.flt := rfl
@[simp] theorem State.loseBank_pinev : (s.loseBank).pinev = s.pinev := rfl
@[simp] theorem State.loseBank_fb : (s.loseBank).fb = s.fb := rfl
@[simp] theorem State.loseBank_flen : (s.loseBank).flen = s.flen := rfl
@[simp] theorem State.loseBank_pins : (s.loseBank).pins = s.pins := rfl
@[simp] theorem State.loseBank_host : (s.loseBank).host = s.host := rfl
@[simp] theorem State.loseBank_cp : (s.loseBank).cp = s.cp := rfl
@[simp] theorem State.loseBank_resp : (s.loseBank).resp = s.resp := rfl
@[simp] theorem State.loseBank_draws : (s.loseBank).draws = s.draws := rfl

/-! `State.clearValid` -/

@[simp] theorem State.clearValid_ch : (s.clearValid).ch = s.ch := rfl
@[simp] theorem State.clearValid_chv : (s.clearValid).chv = false := rfl
@[simp] theorem State.clearValid_dirOut : (s.clearValid).dirOut = s.dirOut := rfl
@[simp] theorem State.clearValid_stepOut : (s.clearValid).stepOut = s.stepOut := rfl
@[simp] theorem State.clearValid_flt : (s.clearValid).flt = s.flt := rfl
@[simp] theorem State.clearValid_pinev : (s.clearValid).pinev = s.pinev := rfl
@[simp] theorem State.clearValid_fb : (s.clearValid).fb = s.fb := rfl
@[simp] theorem State.clearValid_flen : (s.clearValid).flen = s.flen := rfl
@[simp] theorem State.clearValid_pins : (s.clearValid).pins = s.pins := rfl
@[simp] theorem State.clearValid_host : (s.clearValid).host = s.host := rfl
@[simp] theorem State.clearValid_cp : (s.clearValid).cp = s.cp := rfl
@[simp] theorem State.clearValid_resp : (s.clearValid).resp = s.resp := rfl
@[simp] theorem State.clearValid_draws : (s.clearValid).draws = s.draws := rfl

/-! `State.setPins` -/

@[simp] theorem State.setPins_ch (a : PinAnswers) : (s.setPins a).ch = s.ch := rfl
@[simp] theorem State.setPins_chv (a : PinAnswers) : (s.setPins a).chv = s.chv := rfl
@[simp] theorem State.setPins_dirOut (a : PinAnswers) : (s.setPins a).dirOut = s.dirOut := rfl
@[simp] theorem State.setPins_stepOut (a : PinAnswers) : (s.setPins a).stepOut = s.stepOut := rfl
@[simp] theorem State.setPins_flt (a : PinAnswers) : (s.setPins a).flt = s.flt := rfl
@[simp] theorem State.setPins_pinev (a : PinAnswers) : (s.setPins a).pinev = s.pinev := rfl
@[simp] theorem State.setPins_fb (a : PinAnswers) : (s.setPins a).fb = s.fb := rfl
@[simp] theorem State.setPins_flen (a : PinAnswers) : (s.setPins a).flen = s.flen := rfl
@[simp] theorem State.setPins_pins (a : PinAnswers) : (s.setPins a).pins = a := rfl
@[simp] theorem State.setPins_host (a : PinAnswers) : (s.setPins a).host = s.host := rfl
@[simp] theorem State.setPins_cp (a : PinAnswers) : (s.setPins a).cp = s.cp := rfl
@[simp] theorem State.setPins_resp (a : PinAnswers) : (s.setPins a).resp = s.resp := rfl
@[simp] theorem State.setPins_draws (a : PinAnswers) : (s.setPins a).draws = s.draws := rfl

/-! `State.resetBlock` -/

@[simp] theorem State.resetBlock_ch : (s.resetBlock).ch = anyBank s.draws := rfl
@[simp] theorem State.resetBlock_chv : (s.resetBlock).chv = false := rfl
@[simp] theorem State.resetBlock_dirOut : (s.resetBlock).dirOut = false := rfl
@[simp] theorem State.resetBlock_stepOut : (s.resetBlock).stepOut = false := rfl
@[simp] theorem State.resetBlock_flt : (s.resetBlock).flt = 0 := rfl
@[simp] theorem State.resetBlock_pinev : (s.resetBlock).pinev = [] := rfl
@[simp] theorem State.resetBlock_fb : (s.resetBlock).fb = [] := rfl
@[simp] theorem State.resetBlock_flen : (s.resetBlock).flen = 0 := rfl
@[simp] theorem State.resetBlock_pins : (s.resetBlock).pins = s.pins := rfl
@[simp] theorem State.resetBlock_host : (s.resetBlock).host = s.host := rfl
@[simp] theorem State.resetBlock_cp : (s.resetBlock).cp = s.cp := rfl
@[simp] theorem State.resetBlock_resp : (s.resetBlock).resp = none := rfl
@[simp] theorem State.resetBlock_draws : (s.resetBlock).draws = s.draws + 1 := rfl

/-! `State.advance` -/

@[simp] theorem State.advance_ch (n : Nat) : (s.advance n).ch = s.ch := rfl
@[simp] theorem State.advance_chv (n : Nat) : (s.advance n).chv = s.chv := rfl
@[simp] theorem State.advance_dirOut (n : Nat) : (s.advance n).dirOut = s.dirOut := rfl
@[simp] theorem State.advance_stepOut (n : Nat) : (s.advance n).stepOut = s.stepOut := rfl
@[simp] theorem State.advance_flt (n : Nat) : (s.advance n).flt = s.flt := rfl
@[simp] theorem State.advance_pinev (n : Nat) : (s.advance n).pinev = s.pinev := rfl
@[simp] theorem State.advance_fb (n : Nat) : (s.advance n).fb = s.fb := rfl
@[simp] theorem State.advance_flen (n : Nat) : (s.advance n).flen = s.flen := rfl
@[simp] theorem State.advance_pins (n : Nat) : (s.advance n).pins = s.pins := rfl
@[simp] theorem State.advance_host (n : Nat) : (s.advance n).host = s.host.drop n := rfl
@[simp] theorem State.advance_cp (n : Nat) : (s.advance n).cp = s.cp + n := rfl
@[simp] theorem State.advance_resp (n : Nat) : (s.advance n).resp = s.resp := rfl
@[simp] theorem State.advance_draws (n : Nat) : (s.advance n).draws = s.draws := rfl

/-! `State.dropMove` -/

@[simp] theorem State.dropMove_ch : (s.dropMove).ch = s.ch := rfl
@[simp] theorem State.dropMove_chv : (s.dropMove).chv = s.chv := rfl
@[simp] theorem State.dropMove_dirOut : (s.dropMove).dirOut = s.dirOut := rfl
@[simp] theorem State.dropMove_stepOut : (s.dropMove).stepOut = s.stepOut := rfl
@[simp] theorem State.dropMove_flt : (s.dropMove).flt = s.flt := rfl
@[simp] theorem State.dropMove_pinev : (s.dropMove).pinev = s.pinev := rfl
@[simp] theorem State.dropMove_fb : (s.dropMove).fb = s.fb := rfl
@[simp] theorem State.dropMove_flen : (s.dropMove).flen = s.flen := rfl
@[simp] theorem State.dropMove_pins : (s.dropMove).pins = s.pins := rfl
@[simp] theorem State.dropMove_host : (s.dropMove).host = s.host.tail := rfl
@[simp] theorem State.dropMove_cp : (s.dropMove).cp = s.cp := rfl
@[simp] theorem State.dropMove_resp : (s.dropMove).resp = s.resp := rfl
@[simp] theorem State.dropMove_draws : (s.dropMove).draws = s.draws := rfl

/-! `State.issue` -/

@[simp] theorem State.issue_ch (cmd : List Byte) : (s.issue cmd).ch = s.ch := rfl
@[simp] theorem State.issue_chv (cmd : List Byte) : (s.issue cmd).chv = s.chv := rfl
@[simp] theorem State.issue_dirOut (cmd : List Byte) : (s.issue cmd).dirOut = s.dirOut := rfl
@[simp] theorem State.issue_stepOut (cmd : List Byte) : (s.issue cmd).stepOut = s.stepOut := rfl
@[simp] theorem State.issue_flt (cmd : List Byte) : (s.issue cmd).flt = s.flt := rfl
@[simp] theorem State.issue_pinev (cmd : List Byte) : (s.issue cmd).pinev = s.pinev := rfl
@[simp] theorem State.issue_fb (cmd : List Byte) : (s.issue cmd).fb = s.fb := rfl
@[simp] theorem State.issue_flen (cmd : List Byte) : (s.issue cmd).flen = s.flen := rfl
@[simp] theorem State.issue_pins (cmd : List Byte) : (s.issue cmd).pins = s.pins := rfl
@[simp] theorem State.issue_host (cmd : List Byte) : (s.issue cmd).host = cmd.map HostMove.cmdByte ++ s.host := rfl
@[simp] theorem State.issue_cp (cmd : List Byte) : (s.issue cmd).cp = s.cp := rfl
@[simp] theorem State.issue_resp (cmd : List Byte) : (s.issue cmd).resp = s.resp := rfl
@[simp] theorem State.issue_draws (cmd : List Byte) : (s.issue cmd).draws = s.draws := rfl

/-! `State.setPin` and `State.pinWrite` -/

variable (p : Pin) (l : Bool)

@[simp] theorem State.setPin_ch : (s.setPin p l).ch = s.ch := by cases p <;> rfl
@[simp] theorem State.setPin_chv : (s.setPin p l).chv = s.chv := by cases p <;> rfl
@[simp] theorem State.setPin_dirOut : (s.setPin p l).dirOut = if p = .dir then l else s.dirOut := by cases p <;> rfl
@[simp] theorem State.setPin_stepOut : (s.setPin p l).stepOut = if p = .step then l else s.stepOut := by cases p <;> rfl
@[simp] theorem State.setPin_flt : (s.setPin p l).flt = s.flt := by cases p <;> rfl
@[simp] theorem State.setPin_pinev : (s.setPin p l).pinev = s.pinev := by cases p <;> rfl
@[simp] theorem State.setPin_fb : (s.setPin p l).fb = s.fb := by cases p <;> rfl
@[simp] theorem State.setPin_flen : (s.setPin p l).flen = s.flen := by cases p <;> rfl
@[simp] theorem State.setPin_pins : (s.setPin p l).pins = s.pins := by cases p <;> rfl
@[simp] theorem State.setPin_host : (s.setPin p l).host = s.host := by cases p <;> rfl
@[simp] theorem State.setPin_cp : (s.setPin p l).cp = s.cp := by cases p <;> rfl
@[simp] theorem State.setPin_resp : (s.setPin p l).resp = s.resp := by cases p <;> rfl
@[simp] theorem State.setPin_draws : (s.setPin p l).draws = s.draws := by cases p <;> rfl

@[simp] theorem State.pinWrite_fst : (s.pinWrite p l).1 = s.pins.to p := rfl
@[simp] theorem State.pinWrite_ch : (s.pinWrite p l).2.ch = s.ch := by cases p <;> rfl
@[simp] theorem State.pinWrite_chv : (s.pinWrite p l).2.chv = s.chv := by cases p <;> rfl
@[simp] theorem State.pinWrite_dirOut : (s.pinWrite p l).2.dirOut = if p = .dir then l else s.dirOut := by cases p <;> rfl
@[simp] theorem State.pinWrite_stepOut : (s.pinWrite p l).2.stepOut = if p = .step then l else s.stepOut := by cases p <;> rfl
@[simp] theorem State.pinWrite_flt : (s.pinWrite p l).2.flt = s.flt := by cases p <;> rfl
@[simp] theorem State.pinWrite_pinev : (s.pinWrite p l).2.pinev = s.pinev ++ [⟨p, l⟩] := by cases p <;> rfl
@[simp] theorem State.pinWrite_fb : (s.pinWrite p l).2.fb = s.fb := by cases p <;> rfl
@[simp] theorem State.pinWrite_flen : (s.pinWrite p l).2.flen = s.flen := by cases p <;> rfl
@[simp] theorem State.pinWrite_pins : (s.pinWrite p l).2.pins = s.pins.spend p := by cases p <;> rfl
@[simp] theorem State.pinWrite_host : (s.pinWrite p l).2.host = s.host := by cases p <;> rfl
@[simp] theorem State.pinWrite_cp : (s.pinWrite p l).2.cp = s.cp := by cases p <;> rfl
@[simp] theorem State.pinWrite_resp : (s.pinWrite p l).2.resp = s.resp := by cases p <;> rfl
@[simp] theorem State.pinWrite_draws : (s.pinWrite p l).2.draws = s.draws := by cases p <;> rfl

end

end Sys2Proof.Machine
end

