-- ==== Sys2Proof/Laws/Memory.lean ====
section
/-! SUPPORT. What the operations over FB do: reading, loading, and the canonical form. -/

namespace Sys2Proof.Machine

@[simp] theorem Memory.read_nil (i : Nat) : Memory.read [] i = none := rfl

theorem Memory.read_cons (c : Host.Cell) (m : Memory) (i : Nat) :
    Memory.read (c :: m) i = if c.1 = i then some c.2 else Memory.read m i := rfl

theorem Memory.ofBytes_map_fst (bs : List Byte) (first : Nat) :
    (Memory.ofBytes first bs).map (·.1) = List.range' first bs.length := by
  induction bs generalizing first with
  | nil => rfl
  | cons b bs ih => simp [Memory.ofBytes, ih, List.range'_succ]

/-- Reading a loaded memory gives the byte at that place of the list. -/
theorem Memory.read_ofBytes (bs : List Byte) (first i : Nat) :
    Memory.read (Memory.ofBytes first bs) i = if first ≤ i then bs[i - first]? else none := by
  induction bs generalizing first with
  | nil => simp [Memory.ofBytes]
  | cons b bs ih =>
    rw [Memory.ofBytes, Memory.read_cons, ih]
    rcases Nat.lt_trichotomy first i with h | h | h
    · obtain ⟨d, rfl⟩ := Nat.exists_eq_add_of_lt h
      have h1 : first + d + 1 - first = d + 1 := by omega
      have h2 : first + d + 1 - (first + 1) = d := by omega
      simp [show first ≠ first + d + 1 by omega, show first + 1 ≤ first + d + 1 by omega,
        show first ≤ first + d + 1 by omega, h1, h2]
    · simp [h]
    · simp [show ¬ first ≤ i by omega, show ¬ first + 1 ≤ i by omega, show first ≠ i by omega]

/-- Addresses that are a range of FB are in canonical form. -/
theorem Memory.wf_of_map_fst (m : Memory) (first n : Nat) (h : m.map (·.1) = List.range' first n)
    (hn : first + n ≤ 25) : m.wf := by
  refine ⟨?_, fun c hc => ?_⟩
  · have := List.pairwise_lt_range' (s := first) (n := n)
    rw [← h, List.pairwise_map] at this
    exact this
  · have : c.1 ∈ List.range' first n := h ▸ List.mem_map_of_mem (f := (·.1)) hc
    have := (List.mem_range'_1.mp this).2
    omega

/-- Every memory operation keeps the canonical form: the load of a frame is the only one. -/
theorem Memory.wf_ofBytes (bs : List Byte) (h : bs.length ≤ 25) : (Memory.ofBytes 0 bs).wf :=
  Memory.wf_of_map_fst _ 0 bs.length (Memory.ofBytes_map_fst bs 0) (by omega)

/-- Reset's memory is in canonical form. -/
theorem Memory.wf_reset : State.reset.fb.wf := by decide

/-- A byte whose index is listed reads as some value. -/
theorem Memory.read_isSome (m : Memory) (i : Nat) (h : i ∈ m.map (·.1)) :
    ∃ b, Memory.read m i = some b := by
  induction m with
  | nil => simp at h
  | cons c m ih =>
    rw [Memory.read_cons]
    by_cases hc : c.1 = i
    · exact ⟨c.2, by simp [hc]⟩
    · obtain ⟨b, hb⟩ := ih (by simpa [Ne.symm hc, eq_comm] using h)
      exact ⟨b, by simp [hc, hb]⟩

theorem State.memRead_eq_ok (s : State) (i : Nat) (b : Byte) :
    s.memRead i = .ok b ↔ i < 25 ∧ Memory.read s.fb i = some b := by
  unfold State.memRead
  have : params.frameLen = 25 := rfl
  rw [this]
  split
  · cases h : Memory.read s.fb i <;> simp [*]
  · simp [*]

/-- A run of reads answers exactly the listed bytes. -/
theorem State.memReads_eq_ok (s : State) (n i : Nat) (bs : List Byte) :
    s.memReads i n = .ok bs ↔
      bs.length = n ∧ ∀ j, (h : j < bs.length) → s.memRead (i + j) = .ok bs[j] := by
  induction n generalizing i bs with
  | zero =>
    cases bs with
    | nil => simp [State.memReads]
    | cons b bs => simp [State.memReads]
  | succ n ih =>
    unfold State.memReads
    cases h : s.memRead i with
    | error f =>
      constructor
      · intro h'; cases h'
      · rintro ⟨hl, hr⟩
        have := hr 0 (by omega)
        simp [h] at this
    | ok b =>
      simp only
      cases h2 : s.memReads (i + 1) n with
      | error f =>
        constructor
        · intro h'; cases h'
        · rintro ⟨hl, hr⟩
          cases bs with
          | nil => simp at hl
          | cons c bs =>
            have : s.memReads (i + 1) n = .ok bs := (ih (i + 1) bs).mpr
              ⟨by simpa using hl, fun j hj => by
                have := hr (j + 1) (by simpa using hj)
                simpa [Nat.add_assoc, Nat.add_comm 1 j] using this⟩
            simp [h2] at this
      | ok cs =>
        obtain ⟨hl, hr⟩ := (ih (i + 1) cs).mp h2
        constructor
        · intro h'
          cases h'
          refine ⟨by simp [hl], fun j hj => ?_⟩
          cases j with
          | zero => simpa using h
          | succ j =>
            have := hr j (by simpa using hj)
            simpa [Nat.add_assoc, Nat.add_comm 1 j] using this
        · rintro ⟨hl', hr'⟩
          cases bs with
          | nil => simp at hl'
          | cons c bs =>
            have h0 : s.memRead i = .ok c := hr' 0 (by simp)
            have h1 : s.memReads (i + 1) n = .ok bs := (ih (i + 1) bs).mpr
              ⟨by simpa using hl', fun j hj => by
                have := hr' (j + 1) (by simpa using hj)
                simpa [Nat.add_assoc, Nat.add_comm 1 j] using this⟩
            rw [h] at h0
            rw [h2] at h1
            cases h0
            cases h1
            rfl

/-- What is read depends on FB alone. -/
theorem State.memReads_congr {s s' : State} (h : s'.fb = s.fb) (n i : Nat) :
    s'.memReads i n = s.memReads i n := by
  induction n generalizing i with
  | zero => rfl
  | succ n ih => simp only [State.memReads, State.memRead, h, ih]

/-- The reads of DECODE succeed when FB[1..22] hold values, and answer them in order. -/
theorem State.memReads_payload (s : State) (b : Nat → Byte)
    (h : ∀ i, 1 ≤ i → i ≤ 22 → Memory.read s.fb i = some (b i)) :
    s.memReads 1 22 = .ok ((List.range 22).map fun j => b (j + 1)) := by
  rw [State.memReads_eq_ok]
  refine ⟨by simp, fun j hj => ?_⟩
  have hj' : j < 22 := by simpa using hj
  rw [State.memRead_eq_ok]
  refine ⟨by omega, ?_⟩
  rw [h (1 + j) (by omega) (by omega)]
  simp [Nat.add_comm 1 j]

end Sys2Proof.Machine
end

