-- ==== Sys2Proof/Laws/Ops.lean ====
section
/-! SUPPORT. What each shared operation does, said once: the fault bit, the pin writes of DRIVE, the
policy of the mappers, the drawn NaN, and how the trace of pin writes grows. -/

namespace Sys2Proof.Machine

/-- A fault sets its own bit of FLT and no other (R25). -/
theorem setFaultBit_getLsbD (flt : BitVec 5) (f : SpecFault) (j : Nat) :
    (setFaultBit flt f).getLsbD j = (flt.getLsbD j || decide (j = f.bit)) := by
  have hb : f.bit < 5 := by cases f <;> decide
  rcases Nat.lt_or_ge j 5 with hj | hj
  · have : ∀ (j : Fin 5) (f : SpecFault), (1#5 <<< f.bit).getLsbD j = decide (j.val = f.bit) := by
      intro j f; cases f <;> revert j <;> decide
    simp only [setFaultBit, BitVec.getLsbD_or, this ⟨j, hj⟩ f]
  · have : j ≠ f.bit := by omega
    simp [BitVec.getLsbD_of_ge _ _ hj, this]

theorem SetsOnly.of_raise (s : State) (f : SpecFault) : SetsOnly f.bit s (s.raise f) :=
  ⟨by simp [setFaultBit_getLsbD], fun j hj => by simp [setFaultBit_getLsbD, hj]⟩

/-- A raised fault is answered with its own code (R180). -/
theorem Responds.of_raise (s : State) (f : SpecFault) :
    Responds (s.raise f) (Status.fault f).code := ⟨_, rfl, rfl⟩

theorem SameButAnswer.of_raise (s : State) (f : SpecFault) : SameButAnswer s (s.raise f) := by
  simp [SameButAnswer, SameBank, SamePins, SameFrame, SameHost]

theorem SameButAnswer.of_respond (s : State) (st : Status) (r : BitVec 32) :
    SameButAnswer s (s.respond st r) := by
  simp [SameButAnswer, SameBank, SamePins, SameFrame, SameHost]

theorem SameButAnswer.of_countDraw_respond (s : State) (st : Status) (r : BitVec 32) :
    SameButAnswer s (s.countDraw.respond st r) := by
  simp [SameButAnswer, SameBank, SamePins, SameFrame, SameHost]

/-- R13's `tdiv` is the library's division toward zero. -/
theorem tdiv_eq (a b : Int) : tdiv a b = a.tdiv b := by
  rcases Int.natAbs_eq a with h | h <;> rcases Int.natAbs_eq b with h' | h' <;> rw [h, h'] <;>
    generalize a.natAbs = m <;> generalize b.natAbs = n <;>
    rcases Nat.eq_zero_or_pos m with rfl | hm <;> rcases Nat.eq_zero_or_pos n with rfl | hn <;>
    simp [tdiv, Int.sign_neg, Int.sign_eq_one_of_pos, Int.neg_tdiv, Int.tdiv_neg, *]

/-- The two pin writes of DRIVE: the sum of the answers, both registers at the level of the
direction, and the two events in order (R150, R158). -/
theorem drivePins_eq (fwd : Bool) (s : State) :
    drivePins fwd s = (s.pins.dir.toInt + s.pins.step.toInt,
      { s with
        dirOut := fwd
        stepOut := fwd
        pinev := s.pinev ++ [⟨.dir, fwd⟩, ⟨.step, fwd⟩]
        pins := ⟨0, 0⟩ }) := by
  cases fwd <;>
    simp [drivePins, State.pinWrite, State.setPin, params, phase, stepLevels, PinAnswers.to,
      PinAnswers.spend]

/-- Which step of the policy answers, in numbers (R120, R130). -/
theorem region_eq (lo hi chan : U16) (w : ChannelWindow) :
    region lo hi chan w =
      if chan.toNat < w.min.toNat then .below
      else if w.max.toNat < chan.toNat then .above
      else if lo.toNat ≤ chan.toNat ∧ chan.toNat ≤ hi.toNat then .deadzone
      else .between := rfl

/-- A drawn NaN is a NaN, whatever is drawn (R14). -/
theorem drawnNaN_isNaN (n : Nat) : isNaN (drawnNaN n) = true := by
  have key : ∀ (sg : BitVec 1) (fr : BitVec 23), fr ≠ 0 → isNaN (sg ++ 255#8 ++ fr) = true := by
    intro sg fr h
    have h1 : (sg ++ 255#8 ++ fr : BitVec (1 + 8 + 23)).extractLsb' 23 8 = 255#8 := by
      ext i hi
      rw [BitVec.getElem_extractLsb', BitVec.getLsbD_append, BitVec.getLsbD_append]
      simp [hi, BitVec.getLsbD_eq_getElem]
    have h2 : (sg ++ 255#8 ++ fr : BitVec (1 + 8 + 23)).extractLsb' 0 23 = fr := by
      ext i hi
      rw [BitVec.getElem_extractLsb', BitVec.getLsbD_append]
      simp [hi, BitVec.getLsbD_eq_getElem]
    have h1' : (sg ++ 255#8 ++ fr : F).extractLsb' 23 8 = 255#8 := h1
    have h2' : (sg ++ 255#8 ++ fr : F).extractLsb' 0 23 = fr := h2
    have h3 : fr.toNat ≠ 0 := fun h0 => h (BitVec.eq_of_toNat_eq (by simpa using h0))
    simp [isNaN, unpack, h1', h2', h3]
  unfold drawnNaN
  split
  · exact key _ _ (by decide)
  · exact key _ _ ‹_›

/-- IVEL's own fault is DivZero (R186). -/
theorem velocity_error {p : Params} {nan : F} {chan : U16} {w : ChannelWindow} {v : VelocityRange}
    {f : SpecFault} (h : velocity p nan chan w v = .error f) :
    f = .divZero ∧ region p.velDzLo p.velDzHi chan w = .between ∧ w.max = w.min := by
  unfold velocity at h
  split at h
  · cases h
  · cases h
  · cases h
  · split at h
    · cases h; exact ⟨rfl, ‹_›, ‹_›⟩
    · cases h

/-- Narrowing answers the number itself when it fits, else ResultRange (R135). -/
theorem narrow_some (r : Int) :
    narrow (some r) =
      if r < -2 ^ 31 ∨ 2 ^ 31 - 1 < r then .error .resultRange else .ok (BitVec.ofInt 32 r) := rfl

theorem narrow_error {o : Option Int} {f : SpecFault} (h : narrow o = .error f) :
    f = .resultRange := by
  cases o with
  | none => cases h; rfl
  | some r => rw [narrow_some] at h; split at h <;> cases h; rfl

/-- IPWM's own faults are DivZero and ResultRange (R186). -/
theorem pwm_error {p : Params} {nan : F} {chan : U16} {w : ChannelWindow} {r : PwmRange}
    {f : SpecFault} (h : pwm p nan chan w r = .error f) : f = .divZero ∨ f = .resultRange := by
  unfold pwm at h
  split at h
  · cases h
  · cases h
  · exact .inr (narrow_error h)
  · split at h
    · cases h; exact .inl rfl
    · exact .inr (narrow_error h)

/-- STEPINT's division, with the parameters' values (R170, R171). -/
theorem stepInterval_eq {rpm : U16} (h : rpm ≠ 0) : stepInterval params rpm =
    fdiv 0x7FC00000 (i2f 60000000) (i2f (200 * rpm.toNat : Nat)) := by
  have ppr : params.ppr = 200 := rfl
  have us : ((params.usPerMin : Nat) : Int) = 60000000 := by decide
  unfold stepInterval
  rw [if_neg h, ppr, us]
  simp only [params, binary32]

theorem pinPairs_append (l : List PinEvent) (lv : Bool) :
    pinPairs l = true → pinPairs (l ++ [⟨.dir, lv⟩, ⟨.step, lv⟩]) = true := by
  intro h
  induction l using pinPairs.induct with
  | case1 => simp [pinPairs]
  | case2 e => simp [pinPairs] at h
  | case3 d t rest ih =>
    simp only [pinPairs, Bool.and_eq_true, List.cons_append] at h ⊢
    exact ⟨h.1, ih h.2⟩

theorem lastLevel_append (p : Pin) (l : List PinEvent) (e : PinEvent) :
    lastLevel p (l ++ [e]) = if e.pin = p then e.level else lastLevel p l := by
  simp [lastLevel]

end Sys2Proof.Machine
end

