-- ==== Sys2Proof/Laws/Exec.lean ====
section
/-! SUPPORT. What one command can do, said once: `exec_cases` lists every outcome of `exec`, so a claim
about all commands is a case analysis over it and never unfolds a meaning. -/

namespace Sys2Proof.Machine

/-- The state after an answered DECODE (R100). -/
theorem execDecode_present {s : State} (b : Nat → Byte) (hl : 23 ≤ s.flen.val)
    (h : ∀ i, 1 ≤ i → i ≤ 22 → Memory.read s.fb i = some (b i)) :
    execDecode .present s = .next ((s.setBank (channelTable fun i =>
      payloadByte ((List.range 22).map fun j => b (j + 1)) i)).respond .ok 0) := by
  have h1 : ¬ s.flen.val < params.minValid := by
    show ¬ s.flen.val < 23
    omega
  have h2 : s.memReads params.payFirst (params.payLast + 1 - params.payFirst) = _ :=
    s.memReads_payload b h
  simp only [execDecode, if_neg h1, h2]

/-- The payload byte DECODE uses for index i is FB[i]. -/
theorem payloadByte_range (b : Nat → Byte) (i : Nat) (h1 : 1 ≤ i) (h2 : i ≤ 22) :
    payloadByte ((List.range 22).map fun j => b (j + 1)) i = (b i).toNat := by
  have h3 : i - 1 < 22 := by omega
  have h4 : params.payFirst = 1 := rfl
  simp [payloadByte, h4, List.getD_eq_getElem?_getD, List.getElem?_range h3, Nat.sub_add_cancel h1]

/-- Every outcome of one command, with the command and the statuses it can go with. -/
theorem exec_cases (i : Instr) (s : State) :
    -- a response that changes nothing else
    (∃ st r, st ∈ allowedStatus i ∧ (∀ f, st ≠ .fault f) ∧
      (st ≠ .ok → st ≠ .pinError ∧ r = 0) ∧
      (exec i s = .next (s.respond st r) ∨ exec i s = .next (s.countDraw.respond st r))) ∨
    -- a fault that changes nothing else
    (∃ f, .fault f ∈ allowedStatus i ∧ exec i s = .next (s.raise f)) ∨
    -- DECODE of a short buffer
    (i = .decode .present ∧ s.flen.val < 23 ∧
      exec i s = .next (s.loseBank.clearValid.raise .shortBuffer)) ∨
    -- DECODE of a buffer
    (i = .decode .present ∧ 23 ≤ s.flen.val ∧ ∃ bank, exec i s = .next ((s.setBank bank).respond .ok 0)) ∨
    -- DECODE at a byte that holds no value
    (i = .decode .present ∧ 23 ≤ s.flen.val ∧ ∃ f, s.memReads 1 22 = .error f ∧
      exec i s = .fault f) ∨
    -- DRIVE with both pin writes
    (∃ chan w lv st r, i = .drive chan (some w) .present ∧ (st = .ok ∨ st = .pinError) ∧
      exec i s = .next (({ s with
        dirOut := lv
        stepOut := lv
        pinev := s.pinev ++ [⟨.dir, lv⟩, ⟨.step, lv⟩]
        pins := ⟨0, 0⟩ } : State).respond st r)) := by
  cases i with
  | decode buf =>
    cases buf with
    | absent => exact .inl ⟨.nullBuffer, 0, by simp [allowedStatus], by simp, by simp, .inl rfl⟩
    | present =>
      rcases Nat.lt_or_ge s.flen.val 23 with h | h
      · exact .inr (.inr (.inl ⟨rfl, h, if_pos h⟩))
      · have hx : exec (.decode .present) s =
            match s.memReads 1 22 with
            | .error f => .fault f
            | .ok payload =>
              .next ((s.setBank (channelTable (payloadByte payload))).respond .ok 0) :=
          if_neg (show ¬ s.flen.val < 23 by omega)
        cases hm : s.memReads 1 22 with
        | error f => exact .inr (.inr (.inr (.inr (.inl ⟨rfl, h, f, rfl, by rw [hx, hm]⟩))))
        | ok bs => exact .inr (.inr (.inr (.inl ⟨rfl, h, _, by rw [hx, hm]⟩)))
  | rdch k =>
    by_cases h : s.chv
    · exact .inl ⟨.ok, _, by simp [allowedStatus], by simp, by simp, .inl (if_pos h)⟩
    · exact .inr (.inl ⟨.chanInvalid, by simp [allowedStatus], if_neg h⟩)
  | parchk flag => exact .inl ⟨.ok, _, by simp [allowedStatus], by simp, by simp, .inl rfl⟩
  | ivel chan c v =>
    cases c with
    | none => exact .inl ⟨.nullRange, 0, by simp [allowedStatus], by simp, by simp, .inl rfl⟩
    | some w =>
      cases v with
      | none => exact .inl ⟨.nullRange, 0, by simp [allowedStatus], by simp, by simp, .inl rfl⟩
      | some v =>
        cases h : velocity params (drawnNaN s.draws) chan w v with
        | ok r =>
          exact .inl ⟨.ok, r, by simp [allowedStatus], by simp, by simp, .inr (by
            simp only [exec, execIvel, h])⟩
        | error f =>
          obtain ⟨rfl, -⟩ := velocity_error h
          exact .inr (.inl ⟨.divZero, by simp [allowedStatus], by simp only [exec, execIvel, h]⟩)
  | ipwm chan c r =>
    cases c with
    | none => exact .inl ⟨.nullRange, 0, by simp [allowedStatus], by simp, by simp, .inl rfl⟩
    | some w =>
      cases r with
      | none => exact .inl ⟨.nullRange, 0, by simp [allowedStatus], by simp, by simp, .inl rfl⟩
      | some r =>
        cases h : pwm params (drawnNaN s.draws) chan w r with
        | ok v =>
          exact .inl ⟨.ok, v, by simp [allowedStatus], by simp, by simp, .inr (by
            simp only [exec, execIpwm, h])⟩
        | error f =>
          refine .inr (.inl ⟨f, ?_, by simp only [exec, execIpwm, h]⟩)
          rcases pwm_error h with rfl | rfl <;> simp [allowedStatus]
  | drive chan c motor =>
    cases c with
    | none => exact .inl ⟨.nullArgument, 0, by simp [allowedStatus], by simp, by simp, .inl rfl⟩
    | some w =>
      cases motor with
      | absent =>
        exact .inl ⟨.nullArgument, 0, by simp [allowedStatus], by simp, by simp, .inl rfl⟩
      | present =>
        refine .inr (.inr (.inr (.inr (.inr ?_))))
        simp only [exec, execDrive, drivePins_eq]
        split
        · exact ⟨chan, w, _, .ok, 0, rfl, .inl rfl, rfl⟩
        · exact ⟨chan, w, _, .pinError, _, rfl, .inr rfl, rfl⟩
  | stepint rpm => exact .inl ⟨.ok, _, by simp [allowedStatus], by simp, by simp, .inl rfl⟩

end Sys2Proof.Machine
end

