-- ==== Sys2Proof/Laws/Float.lean ====
section
/-! SUPPORT. The rounding of `F` (spec/00_scope.md R14): what the leading exponent, the rounded
quotient and the significand are, what a pattern stands for, and `roundPack_roundsTo`, the one lemma
about rounding that every operation's own lemma cites. -/

namespace Sys2Proof.Machine

/-- A difference of exponents, as two natural powers of which one is 1. -/
theorem two_zpow_toNat (d : Int) : (2 : ℚ) ^ d.toNat / 2 ^ (-d).toNat = (2 : ℚ) ^ d := by
  rcases le_total 0 d with h | h
  · obtain ⟨n, rfl⟩ := Int.eq_ofNat_of_zero_le h
    simp
  · obtain ⟨n, hn⟩ := Int.eq_ofNat_of_zero_le (neg_nonneg.mpr h)
    obtain rfl : d = -(n : Int) := by omega
    simp

theorem log2_bounds {n : Nat} (h : 0 < n) :
    (2 : ℚ) ^ (n.log2 : Int) ≤ n ∧ (n : ℚ) < 2 ^ ((n.log2 : Int) + 1) := by
  constructor
  · have := Nat.log2_self_le h.ne'
    rw [zpow_natCast]; exact_mod_cast this
  · have := Nat.lt_log2_self (n := n)
    rw [show ((n.log2 : Int) + 1) = ((n.log2 + 1 : Nat) : Int) by push_cast; rfl, zpow_natCast]
    exact_mod_cast this

/-- The leading exponent is that of the leading bit. -/
theorem leadingExponent_spec {num den : Nat} (hn : 0 < num) (hd : 0 < den) :
    (2 : ℚ) ^ leadingExponent num den ≤ (num : ℚ) / den ∧
      (num : ℚ) / den < 2 ^ (leadingExponent num den + 1) := by
  have hd' : (0 : ℚ) < den := by exact_mod_cast hd
  obtain ⟨n1, n2⟩ := log2_bounds hn
  obtain ⟨d1, d2⟩ := log2_bounds hd
  generalize hk : (num.log2 : Int) - den.log2 = k at *
  have hlo : (2 : ℚ) ^ (k - 1) ≤ num / den := by
    rw [le_div_iff₀ hd']
    calc (2 : ℚ) ^ (k - 1) * den ≤ 2 ^ (k - 1) * 2 ^ ((den.log2 : Int) + 1) := by gcongr
      _ = 2 ^ (num.log2 : Int) := by rw [← zpow_add₀ (by norm_num)]; congr 1; omega
      _ ≤ num := n1
  have hhi : (num : ℚ) / den < 2 ^ (k + 1) := by
    rw [div_lt_iff₀ hd']
    calc (num : ℚ) < 2 ^ ((num.log2 : Int) + 1) := n2
      _ = 2 ^ (k + 1) * 2 ^ (den.log2 : Int) := by
        rw [← zpow_add₀ (by norm_num)]; congr 1; omega
      _ ≤ 2 ^ (k + 1) * den := by gcongr
  have hc : num * 2 ^ (-k).toNat < den * 2 ^ k.toNat ↔ (num : ℚ) / den < 2 ^ k := by
    rw [← two_zpow_toNat k, div_lt_div_iff₀ hd' (by positivity), mul_comm ((2 : ℚ) ^ k.toNat)]
    exact_mod_cast Iff.rfl
  unfold leadingExponent
  simp only [hk, hc]
  split
  · exact ⟨hlo, by rw [sub_add_cancel]; assumption⟩
  · exact ⟨not_lt.mp ‹_›, hhi⟩

/-- The rounded quotient is a nearest integer, and even if another one is as near. -/
theorem roundNearest_spec (a b : Nat) (hb : 0 < b) :
    |(roundNearest a b : ℚ) - a / b| ≤ 1 / 2 ∧
    ∀ n : ℤ, |(roundNearest a b : ℚ) - a / b| ≤ |(n : ℚ) - a / b| ∧
      (|(roundNearest a b : ℚ) - a / b| = |(n : ℚ) - a / b| → n ≠ roundNearest a b →
        roundNearest a b % 2 = 0) := by
  have hb' : (0 : ℚ) < b := by exact_mod_cast hb
  obtain ⟨x, hx⟩ : ∃ x : ℚ, x = ((a % b : Nat) : ℚ) / b := ⟨_, rfl⟩
  have hq : (a : ℚ) / b = (a / b : Nat) + x := by
    rw [hx, eq_comm, ← mul_left_inj' hb'.ne', add_mul, div_mul_cancel₀ _ hb'.ne',
      div_mul_cancel₀ _ hb'.ne']
    exact_mod_cast (Nat.div_add_mod' a b)
  have hx0 : 0 ≤ x := by rw [hx]; positivity
  have hx1 : x < 1 := by
    rw [hx, div_lt_one hb']; exact_mod_cast Nat.mod_lt a hb
  have c1 : b < 2 * (a % b) ↔ 1 / 2 < x := by
    rw [hx, lt_div_iff₀ hb', ← mul_lt_mul_iff_right₀ (show (0 : ℚ) < 2 by norm_num)]
    rw [← mul_assoc]; norm_num; exact_mod_cast Iff.rfl
  have c2 : b = 2 * (a % b) ↔ x = 1 / 2 := by
    rw [hx, div_eq_iff hb'.ne', ← mul_right_inj' (show (2 : ℚ) ≠ 0 by norm_num), ← mul_assoc]
    norm_num
    rw [eq_comm]; exact_mod_cast Iff.rfl
  generalize hQ : a / b = q at *
  have hint : ∀ n : ℤ, n ≤ q ∨ (q : ℤ) + 1 ≤ n := fun n => by omega
  unfold roundNearest
  rw [hQ]
  simp only [c1, c2, hq]
  split
  · rename_i hup
    have hx2 : 1 / 2 ≤ x := by rcases hup with h | ⟨h, -⟩ <;> linarith
    have hab : |((q + 1 : Nat) : ℚ) - (q + x)| = 1 - x := by
      rw [abs_of_nonneg] <;> push_cast <;> linarith
    rw [hab]
    refine ⟨by linarith, fun n => ?_⟩
    rcases hint n with h | h
    · have h' : (n : ℚ) ≤ q := by exact_mod_cast h
      rw [abs_of_nonpos (by linarith)]
      refine ⟨by linarith, fun he _ => ?_⟩
      rcases hup with h2 | ⟨-, h2⟩
      · linarith
      · omega
    · have h' : (q : ℚ) + 1 ≤ n := by exact_mod_cast h
      rw [abs_of_nonneg (by linarith)]
      refine ⟨by linarith, fun he hne => ?_⟩
      exact absurd (by
        have : (n : ℚ) = q + 1 := by linarith
        exact_mod_cast this) hne
  · rename_i hdn
    have hx2 : x ≤ 1 / 2 := by
      by_contra hc; exact hdn (.inl (not_le.mp hc))
    have hab : |(q : ℚ) - (q + x)| = x := by
      rw [abs_of_nonpos] <;> linarith
    rw [hab]
    refine ⟨by linarith, fun n => ?_⟩
    rcases hint n with h | h
    · have h' : (n : ℚ) ≤ q := by exact_mod_cast h
      rw [abs_of_nonpos (by linarith)]
      refine ⟨by linarith, fun he hne => ?_⟩
      exact absurd (by
        have : (n : ℚ) = q := by linarith
        exact_mod_cast this) hne
    · have h' : (q : ℚ) + 1 ≤ n := by exact_mod_cast h
      rw [abs_of_nonneg (by linarith)]
      refine ⟨by linarith, fun he _ => ?_⟩
      have hx3 : x = 1 / 2 := by linarith
      by_contra ho
      exact hdn (.inr ⟨hx3, by omega⟩)

/-- The significand is the magnitude in units of the last place, rounded. -/
theorem significand_eq (num den : Nat) (e : Int) (hd : 0 < den) :
    ∃ a b : Nat, 0 < b ∧ significand num den e = roundNearest a b ∧
      (a : ℚ) / b = num / den * 2 ^ e / 2 ^ lastPlace num den e := by
  refine ⟨_, _, ?_, rfl, ?_⟩
  · positivity
  · generalize lastPlace num den e = u
    have := two_zpow_toNat (e - u)
    rw [neg_sub, zpow_sub₀ (by norm_num)] at this
    push_cast
    rw [mul_div_assoc ((num : ℚ) / den), ← this, div_mul_div_comm]

theorem signed_toNat (neg : Bool) {mag : Nat} (h : mag < 2 ^ 31) :
    (signed neg mag).toNat = neg.toNat * 2 ^ 31 + mag := by
  have h1 : (signed neg mag).toNat = neg.toNat <<< 31 ||| mag := by
    have := BitVec.toNat_append (BitVec.ofBool neg) (BitVec.ofNat 31 mag)
    rw [BitVec.toNat_ofBool, BitVec.toNat_ofNat, Nat.mod_eq_of_lt h] at this
    exact this
  rw [h1, Nat.shiftLeft_eq, Nat.mul_comm, ← Nat.two_pow_add_eq_or_of_lt h]

/-- A pattern's parts, from the pattern as a number (R14). -/
theorem unpack_eq (w : F) : unpack w =
    let ex : Nat := w.toNat / 2 ^ 23 % 256
    let fr : Nat := w.toNat % 2 ^ 23
    let neg := decide (2 ^ 31 ≤ w.toNat)
    if ex = 255 then (if fr = 0 then .inf neg else .nan)
    else if ex = 0 then .fin neg fr (-149)
    else .fin neg (fr + 2 ^ 23) ((ex : Nat) - 150) := by
  have h1 : w.getLsbD 31 = decide (2 ^ 31 ≤ w.toNat) := by
    have := w.isLt
    rw [BitVec.getLsbD, Nat.testBit_eq_decide_div_mod_eq]
    congr 1
    rw [eq_iff_iff]
    omega
  have h2 : (w.extractLsb' 23 8).toNat = w.toNat / 2 ^ 23 % 256 := by
    simp [BitVec.extractLsb'_toNat, Nat.shiftRight_eq_div_pow]
  have h3 : (w.extractLsb' 0 23).toNat = w.toNat % 2 ^ 23 := by
    simp [BitVec.extractLsb'_toNat]
  simp only [unpack, h1, h2, h3]

/-- The sign as a factor. -/
def signQ (neg : Bool) : ℚ := if neg then -1 else 1

theorem unpack_signed (neg : Bool) {mag : Nat} (h : mag < 255 * 2 ^ 23) :
    unpack (signed neg mag) =
      if mag / 2 ^ 23 = 0 then .fin neg (mag % 2 ^ 23) (-149)
      else .fin neg (mag % 2 ^ 23 + 2 ^ 23) ((mag / 2 ^ 23 : Nat) - 150) := by
  have hn := signed_toNat neg (show mag < 2 ^ 31 by omega)
  have h1 : (signed neg mag).toNat / 2 ^ 23 % 256 = mag / 2 ^ 23 := by
    rw [hn]; cases neg <;> (simp; omega)
  have h2 : (signed neg mag).toNat % 2 ^ 23 = mag % 2 ^ 23 := by
    rw [hn]; (cases neg <;> simp); omega
  have h3 : decide (2 ^ 31 ≤ (signed neg mag).toNat) = neg := by
    rw [hn]; (cases neg <;> simp); omega
  rw [unpack_eq]
  simp only [h1, h2, h3]
  rw [if_neg (by omega)]

/-- What a finite pattern made of a significand and a last place stands for. -/
theorem valueF_signed (neg : Bool) {u : Int} {M : Nat} (hu : -149 ≤ u)
    (hM : u = -149 ∨ 2 ^ 23 ≤ M) (hM' : M ≤ 2 ^ 24)
    (h : (u + 149).toNat * 2 ^ 23 + M < 255 * 2 ^ 23) :
    finiteF (signed neg ((u + 149).toNat * 2 ^ 23 + M)) = true ∧
      valueF (signed neg ((u + 149).toNat * 2 ^ 23 + M)) = signQ neg * M * 2 ^ u := by
  have hun := unpack_signed neg h
  obtain ⟨E, rfl⟩ : ∃ E : Nat, u = E - 149 := ⟨(u + 149).toNat, by omega⟩
  have hE : ((E : Int) - 149 + 149).toNat = E := by omega
  rw [hE] at h hun ⊢
  have key : (∃ e : Int, ∃ m : Nat, unpack (signed neg (E * 2 ^ 23 + M)) = .fin neg m e ∧
      (m : ℚ) * 2 ^ e = M * 2 ^ ((E : Int) - 149)) := by
    rw [hun]
    rcases Nat.lt_or_ge M (2 ^ 23) with h1 | h1
    · have hE0 : E = 0 := by omega
      subst hE0
      refine ⟨-149, M, ?_, by simp⟩
      rw [if_pos (by omega)]
      congr 1
      omega
    · rw [if_neg (by omega)]
      rcases Nat.lt_or_ge M (2 ^ 24) with h2 | h2
      · refine ⟨_, _, rfl, ?_⟩
        have e1 : (E * 2 ^ 23 + M) % 2 ^ 23 + 2 ^ 23 = M := by omega
        have e2 : (E * 2 ^ 23 + M) / 2 ^ 23 = E + 1 := by omega
        rw [e1, e2]
        congr 2
        push_cast; ring
      · obtain rfl : M = 2 ^ 24 := by omega
        refine ⟨_, _, rfl, ?_⟩
        have e1 : (E * 2 ^ 23 + 2 ^ 24) % 2 ^ 23 + 2 ^ 23 = 2 ^ 23 := by omega
        have e2 : (E * 2 ^ 23 + 2 ^ 24) / 2 ^ 23 = E + 2 := by omega
        rw [e1, e2, show (((E + 2 : Nat) : Int) - 150) = ((E : Int) - 149) + 1 by push_cast; ring,
          zpow_add_one₀ (by norm_num)]
        push_cast; ring
  obtain ⟨e, m, h1, h2⟩ := key
  constructor
  · simp only [finiteF, h1]
  · simp only [valueF, h1]
    rw [mul_assoc, h2, signQ, mul_assoc]

/-- Every finite pattern is a whole number of units, of fewer than 2^24. -/
theorem valueF_finite {y : F} (h : finiteF y = true) :
    ∃ (neg : Bool) (m : Nat) (f : Int), m < 2 ^ 24 ∧ -149 ≤ f ∧ valueF y = signQ neg * m * 2 ^ f := by
  have hu := unpack_eq y
  simp only at hu
  split at hu
  · split at hu <;> simp [finiteF, hu] at h
  · split at hu
    · exact ⟨decide (2 ^ 31 ≤ y.toNat), y.toNat % 2 ^ 23, -149, by omega, le_refl _,
        by simp only [valueF, hu, signQ]⟩
    · exact ⟨decide (2 ^ 31 ≤ y.toNat), y.toNat % 2 ^ 23 + 2 ^ 23,
        (y.toNat / 2 ^ 23 % 256 : Nat) - 150, by omega, by omega,
        by simp only [valueF, hu, signQ]⟩

theorem signQ_decide_neg (neg : Bool) {v : ℚ} (hv : 0 < v) : decide (signQ neg * v < 0) = neg := by
  cases neg <;> simp [signQ, hv, hv.le]

theorem abs_signQ_mul (neg : Bool) (a : ℚ) : |signQ neg * a| = |a| := by
  cases neg <;> simp [signQ]

theorem abs_signQ_sub (neg : Bool) (a b : ℚ) : |signQ neg * a - signQ neg * b| = |a - b| := by
  rw [← mul_sub, abs_signQ_mul]

theorem abs_mul_sub {p : ℚ} (hp : 0 < p) (a v : ℚ) : |a * p - v| = |a - v / p| * p := by
  rw [show a * p - v = (a - v / p) * p by rw [sub_mul, div_mul_cancel₀ _ hp.ne'], abs_mul,
    abs_of_pos hp]

theorem signQ_mul_self (neg : Bool) (z : ℚ) : signQ neg * (signQ neg * z) = z := by
  cases neg <;> simp [signQ]

/-- Rounding a positive magnitude: what the last place and the significand are (R14). -/
theorem significand_spec {num den : Nat} (hn : 0 < num) (hd : 0 < den) (e : Int) :
    let v : ℚ := num / den * 2 ^ e
    let u := lastPlace num den e
    let M := significand num den e
    0 < v ∧ -149 ≤ u ∧ (u = -149 ∨ 2 ^ 23 ≤ M) ∧ M ≤ 2 ^ 24 ∧
      (u = -149 ∨ (2 : ℚ) ^ 23 ≤ v / 2 ^ u) ∧ v / 2 ^ u < 2 ^ 24 ∧
      |(M : ℚ) - v / 2 ^ u| ≤ 1 / 2 ∧
      ∀ n : ℤ, |(M : ℚ) - v / 2 ^ u| ≤ |(n : ℚ) - v / 2 ^ u| ∧
        (|(M : ℚ) - v / 2 ^ u| = |(n : ℚ) - v / 2 ^ u| → n ≠ M → M % 2 = 0) := by
  intro v u M
  obtain ⟨l1, l2⟩ := leadingExponent_spec hn hd
  obtain ⟨a, b, hb, hM, hab⟩ := significand_eq num den e hd
  have hv : 0 < v := by positivity
  have hu0 : -149 ≤ u := le_max_right _ _
  have hue : e + leadingExponent num den - 23 ≤ u := le_max_left _ _
  have h24 : v / 2 ^ u < 2 ^ 24 := by
    rw [div_lt_iff₀ (by positivity)]
    calc v < 2 ^ (leadingExponent num den + 1) * 2 ^ e := by
          exact mul_lt_mul_of_pos_right l2 (by positivity)
      _ = 2 ^ (leadingExponent num den + 1 + e) := (zpow_add₀ (by norm_num) _ _).symm
      _ ≤ 2 ^ (24 + u) := zpow_le_zpow_right₀ (by norm_num) (by omega)
      _ = 2 ^ 24 * 2 ^ u := by rw [zpow_add₀ (by norm_num)]; norm_num
  have h23 : u = -149 ∨ (2 : ℚ) ^ 23 ≤ v / 2 ^ u := by
    rcases max_choice (e + leadingExponent num den - 23) (-149) with h | h
    · right
      rw [le_div_iff₀ (by positivity)]
      calc (2 : ℚ) ^ 23 * 2 ^ u = 2 ^ (23 + u) := by rw [zpow_add₀ (by norm_num)]; norm_num
        _ = 2 ^ (leadingExponent num den) * 2 ^ e := by
          rw [← zpow_add₀ (by norm_num)]; congr 1; show 23 + max _ _ = _; omega
        _ ≤ v := mul_le_mul_of_nonneg_right l1 (by positivity)
    · exact .inl h
  obtain ⟨r1, r2⟩ := roundNearest_spec a b hb
  rw [hab, ← hM] at r1 r2
  have hM1 := abs_le.mp r1
  refine ⟨hv, hu0, ?_, ?_, h23, h24, r1, r2⟩
  · rcases h23 with h | h
    · exact .inl h
    · right
      have : ((2 ^ 23 : Nat) : ℚ) - 1 < (M : ℚ) := by push_cast; linarith
      have : 2 ^ 23 < M + 1 := by
        have h' : ((2 ^ 23 : Nat) : ℚ) < ((M + 1 : Nat) : ℚ) := by push_cast at *; linarith
        exact_mod_cast h'
      omega
  · have h' : (M : ℚ) < ((2 ^ 24 + 1 : Nat) : ℚ) := by push_cast; linarith
    have : M < 2 ^ 24 + 1 := by exact_mod_cast h'
    omega

/-- The one rounding every operation uses gives the number rounded once to binary32 (R14). -/
theorem roundPack_roundsTo (neg : Bool) (num den : Nat) (e : Int) (hd : 0 < den) :
    RoundsTo (signQ neg * (num / den * 2 ^ e)) (roundPack neg num den e) := by
  rcases Nat.eq_zero_or_pos num with rfl | hn
  · have hr : roundPack neg 0 den e = signed neg ((-149 + 149 : Int).toNat * 2 ^ 23 + 0) := by
      simp [roundPack]
    obtain ⟨h1, h2⟩ := valueF_signed neg (u := -149) (M := 0) (by omega) (by omega) (by omega)
      (by decide)
    rw [← hr] at h1 h2
    unfold RoundsTo
    rw [if_neg (by norm_num)]
    refine ⟨h1, fun y _ => ?_⟩
    rw [h2]
    simp only [Nat.cast_zero, zero_div, zero_mul, mul_zero, sub_zero, abs_zero]
    exact ⟨abs_nonneg _, fun h hne => absurd (abs_eq_zero.mp h.symm) hne⟩
  · obtain ⟨hv, hu, hM, hM', h23, h24, hr, hnear⟩ := significand_spec hn hd e
    have hrp : roundPack neg num den e =
        if 255 * 2 ^ 23 ≤ (lastPlace num den e + 149).toNat * 2 ^ 23 + significand num den e
        then infinity neg
        else signed neg ((lastPlace num den e + 149).toNat * 2 ^ 23 + significand num den e) := by
      simp [roundPack, hn.ne']
    generalize (num : ℚ) / den * 2 ^ e = v at *
    generalize lastPlace num den e = u at *
    generalize significand num den e = M at *
    have h2u : (0 : ℚ) < 2 ^ u := by positivity
    have hr' := abs_le.mp hr
    have hover : 255 * 2 ^ 23 ≤ (u + 149).toNat * 2 ^ 23 + M ↔ (2 : ℚ) ^ 128 - 2 ^ 103 ≤ v := by
      rcases lt_trichotomy u 104 with h | rfl | h
      · have : v < 2 ^ (127 : ℤ) := by
          calc v < 2 ^ 24 * 2 ^ u := by rwa [div_lt_iff₀ h2u] at h24
            _ = 2 ^ (24 + u) := by rw [zpow_add₀ (by norm_num)]; norm_num
            _ ≤ 2 ^ (127 : ℤ) := zpow_le_zpow_right₀ (by norm_num) (by omega)
        constructor
        · intro hh; omega
        · intro hh; norm_num at this hh; linarith
      · have hiff : 2 ^ 24 ≤ M ↔ (2 : ℚ) ^ 24 - 1 / 2 ≤ v / 2 ^ (104 : ℤ) := by
          constructor
          · intro hh
            have : ((2 ^ 24 : Nat) : ℚ) ≤ M := by exact_mod_cast hh
            push_cast at this; linarith
          · intro hh
            by_contra hc
            have hM1 : (M : ℚ) ≤ 2 ^ 24 - 1 := by
              have h' : ((M + 1 : Nat) : ℚ) ≤ ((2 ^ 24 : Nat) : ℚ) := by
                exact_mod_cast (show M + 1 ≤ 2 ^ 24 by omega)
              push_cast at h'; linarith
            have hx : v / 2 ^ (104 : ℤ) = 2 ^ 24 - 1 / 2 := by linarith
            have hM2 : (M : ℚ) = 2 ^ 24 - 1 := by linarith
            have hM3 : M = 2 ^ 24 - 1 := by
              have : (M : ℚ) = ((2 ^ 24 - 1 : Nat) : ℚ) := by rw [hM2]; norm_num
              exact_mod_cast this
            have := (hnear (2 ^ 24)).2 (by
              rw [hx, hM2]; norm_num) (by rw [hM3]; norm_num)
            omega
        rw [le_div_iff₀ h2u] at hiff
        rw [show (2 : ℚ) ^ 128 - 2 ^ 103 = (2 ^ 24 - 1 / 2) * 2 ^ (104 : ℤ) by norm_num, ← hiff]
        omega
      · have : (2 : ℚ) ^ (128 : ℤ) ≤ v := by
          rcases h23 with h' | h'
          · omega
          · calc (2 : ℚ) ^ (128 : ℤ) ≤ 2 ^ (23 + u) :=
                  zpow_le_zpow_right₀ (by norm_num) (by omega)
              _ = 2 ^ 23 * 2 ^ u := by rw [zpow_add₀ (by norm_num)]; norm_num
              _ ≤ v := by rwa [le_div_iff₀ h2u] at h'
        constructor
        · intro _; norm_num at this ⊢; linarith
        · intro _; omega
    unfold RoundsTo
    rw [abs_signQ_mul, abs_of_pos hv, hrp, signQ_decide_neg neg hv]
    simp only [hover]
    split
    · rfl
    · rename_i hno
      obtain ⟨hf, hval⟩ := valueF_signed neg hu hM hM' (by rw [← not_le, hover]; exact hno)
      refine ⟨hf, fun y hy => ?_⟩
      obtain ⟨sy, m, f, hm, hf149, hy'⟩ := valueF_finite hy
      -- compare in units of the last place, with the sign taken out
      obtain ⟨z, hz⟩ : ∃ z, z = signQ neg * valueF y / 2 ^ u := ⟨_, rfl⟩
      have hyz : valueF y = signQ neg * (z * 2 ^ u) := by
        rw [hz, div_mul_cancel₀ _ h2u.ne', signQ_mul_self]
      have hd1 : |signQ neg * M * 2 ^ u - signQ neg * v| = |(M : ℚ) - v / 2 ^ u| * 2 ^ u := by
        rw [mul_assoc, abs_signQ_sub, abs_mul_sub h2u]
      have hd2 : |valueF y - signQ neg * v| = |z - v / 2 ^ u| * 2 ^ u := by
        rw [hyz, abs_signQ_sub, abs_mul_sub h2u]
      rw [hval, hd1, hd2]
      -- some integer is no further from the magnitude than `z` is, and as near only if it is `z`
      obtain ⟨n, hn1, hn2⟩ : ∃ n : ℤ, |(n : ℚ) - v / 2 ^ u| ≤ |z - v / 2 ^ u| ∧
          (|(n : ℚ) - v / 2 ^ u| = |z - v / 2 ^ u| → z = n) := by
        have hvu : 0 < v / 2 ^ u := by positivity
        rcases le_or_gt z 0 with h0 | h0
        · refine ⟨0, ?_, fun h => ?_⟩
          · rw [abs_of_nonpos (by push_cast; linarith), abs_of_nonpos (by linarith)]
            push_cast; linarith
          · rw [abs_of_nonpos (by push_cast; linarith), abs_of_nonpos (by linarith)] at h
            push_cast at h ⊢; linarith
        · rcases le_or_gt u f with huf | huf
          · obtain ⟨d, hd'⟩ := Int.eq_ofNat_of_zero_le (sub_nonneg.mpr huf)
            have hzn : z = ((if neg = sy then 1 else -1 : ℤ) * m * 2 ^ d : ℤ) := by
              rw [hz, hy', show f = u + d by omega, zpow_add₀ (by norm_num), zpow_natCast]
              push_cast
              rw [div_eq_iff h2u.ne']
              cases neg <;> cases sy <;> simp [signQ] <;> ring
            exact ⟨_, by rw [hzn], fun _ => hzn⟩
          · have hz23 : z < 2 ^ 23 := by
              have h1 : z * 2 ^ u ≤ m * 2 ^ f := by
                have : z * 2 ^ u = signQ neg * valueF y := by rw [hz, div_mul_cancel₀ _ h2u.ne']
                rw [this, hy']
                have hp : (0 : ℚ) ≤ m * 2 ^ f := by positivity
                cases neg <;> cases sy <;> simp [signQ] <;> linarith
              have h2 : (m : ℚ) * 2 ^ f < 2 ^ 23 * 2 ^ u := by
                calc (m : ℚ) * 2 ^ f < 2 ^ 24 * 2 ^ f := by
                      have : (m : ℚ) < ((2 ^ 24 : Nat) : ℚ) := by exact_mod_cast hm
                      push_cast at this
                      exact mul_lt_mul_of_pos_right this (by positivity)
                  _ = 2 ^ (24 + f) := by rw [zpow_add₀ (by norm_num)]; norm_num
                  _ ≤ 2 ^ (23 + u) := zpow_le_zpow_right₀ (by norm_num) (by omega)
                  _ = 2 ^ 23 * 2 ^ u := by rw [zpow_add₀ (by norm_num)]; norm_num
              exact lt_of_mul_lt_mul_right (h1.trans_lt h2) h2u.le
            have hv23 : (2 : ℚ) ^ 23 ≤ v / 2 ^ u := by
              rcases h23 with h | h
              · omega
              · exact h
            refine ⟨2 ^ 23, ?_, fun h => ?_⟩
            · rw [abs_of_nonpos (by push_cast; linarith), abs_of_nonpos (by linarith)]
              push_cast; linarith
            · rw [abs_of_nonpos (by push_cast; linarith), abs_of_nonpos (by linarith)] at h
              push_cast at h ⊢; linarith
      obtain ⟨hb1, hb2⟩ := hnear n
      refine ⟨mul_le_mul_of_nonneg_right (hb1.trans hn1) h2u.le, fun h hne => ?_⟩
      have heq := mul_right_cancel₀ h2u.ne' h
      have hzn : z = n := hn2 (le_antisymm hn1 (heq ▸ hb1))
      have heven := hb2 (by rw [heq, hzn]) (by
        intro hnM
        apply hne
        rw [hyz, hzn, hnM]
        push_cast
        ring)
      have hlt : (u + 149).toNat * 2 ^ 23 + M < 2 ^ 31 := by
        have : (u + 149).toNat * 2 ^ 23 + M < 255 * 2 ^ 23 := by rw [← not_le, hover]; exact hno
        omega
      rw [BitVec.getLsbD, signed_toNat neg hlt, Nat.testBit_zero]
      cases neg <;> simp <;> omega
end Sys2Proof.Machine
end

