-- ==== Sys2Proof/Laws/PerInstr.lean ====
section
/-! SUPPORT. Statements about every command as syntax, one lemma per constructor. -/

namespace Sys2Proof.Laws.EncodeLength

/-- The encoder writes as many bytes as the header it writes asks for (R61), and at most those of
the longest command. -/
def Statement (i : Instr) : Prop :=
  (∃ h rest, encode i = h :: rest ∧ rest.length + 1 = commandLength h) ∧
    (encode i).length ≤ longestCommand

theorem decode (buf : Presence) : Statement (.decode buf) := by
  cases buf <;> exact ⟨⟨_, _, rfl, by decide⟩, by decide⟩

theorem rdch (k : BitVec 4) : Statement (.rdch k) :=
  ⟨⟨_, _, rfl, by rw [show commandLength (header false false 1#3) = 2 by decide]; rfl⟩,
    by simp [encode, longestCommand]⟩

theorem parchk (flag : Byte) : Statement (.parchk flag) :=
  ⟨⟨_, _, rfl, by rw [show commandLength (header false false 2#3) = 2 by decide]; rfl⟩,
    by simp [encode, longestCommand]⟩

theorem ivel (chan : U16) (c : Option ChannelWindow) (v : Option VelocityRange) :
    Statement (.ivel chan c v) := by
  have h : ∀ a b, commandLength (header a b 3#3) = 15 := by decide
  cases c <;> cases v <;>
    exact ⟨⟨_, _, rfl, by rw [h]; rfl⟩, by simp [encode, longestCommand, bytes16, bytes32,
      windowBytes, velocityBytes]⟩

theorem ipwm (chan : U16) (c : Option ChannelWindow) (r : Option PwmRange) :
    Statement (.ipwm chan c r) := by
  have h : ∀ a b, commandLength (header a b 4#3) = 19 := by decide
  cases c <;> cases r <;>
    exact ⟨⟨_, _, rfl, by rw [h]; rfl⟩, by simp [encode, longestCommand, bytes16, bytes32,
      windowBytes, pwmBytes]⟩

theorem drive (chan : U16) (c : Option ChannelWindow) (motor : Presence) :
    Statement (.drive chan c motor) := by
  have h : ∀ a b, commandLength (header a b 5#3) = 7 := by decide
  cases c <;> cases motor <;>
    exact ⟨⟨_, _, rfl, by rw [h]; rfl⟩, by simp [encode, longestCommand, bytes16, windowBytes]⟩

theorem stepint (rpm : U16) : Statement (.stepint rpm) :=
  ⟨⟨_, _, rfl, by rw [show commandLength (header false false 6#3) = 3 by decide]; rfl⟩,
    by simp [encode, longestCommand, bytes16]⟩

end Sys2Proof.Laws.EncodeLength
end

