-- ==== Sys2Proof/Laws/Step.lean ====
section
/-! SUPPORT. What one step can do, said once: `step_next` lists the cases of a step that answers a
next state. -/

namespace Sys2Proof.Machine

/-- A step that answers a next state made a host move, or ran the host's next command: a legal one
as `exec` says, an illegal one as IllegalCmd (R65, R215). -/
theorem step_next {s t : State} (h : step s = .next t) :
    (∃ bytes moves, s.host = .loadFrame bytes :: moves ∧ s.dropMove.loadFrame bytes = .next t) ∨
    (∃ answers moves, s.host = .pins answers :: moves ∧ t = s.dropMove.setPins answers) ∨
    (∃ moves, s.host = .reset :: moves ∧ t = s.dropMove.resetBlock) ∨
    (∃ b moves cmd, s.host = .cmdByte b :: moves ∧ s.nextCommand = some cmd ∧
      ((∃ i, decode cmd = .ok i ∧ exec i (s.advance cmd.length) = .next t) ∨
        (∃ e, decode cmd = .error e ∧ t = (s.advance cmd.length).raise .illegalCmd))) := by
  unfold step at h
  split at h
  · cases h
  · exact .inl ⟨_, _, ‹_›, h⟩
  · cases h; exact .inr (.inl ⟨_, _, ‹_›, rfl⟩)
  · cases h; exact .inr (.inr (.inl ⟨_, ‹_›, rfl⟩))
  · split at h
    · cases h
    · refine .inr (.inr (.inr ⟨_, _, _, ‹_›, ‹_›, ?_⟩))
      unfold runCommand at h
      split at h
      · exact .inl ⟨_, ‹_›, h⟩
      · cases h; exact .inr ⟨_, ‹_›, rfl⟩

/-- A frame the host may load is loaded (R78). -/
theorem State.loadFrame_eq {s : State} {bytes : List Byte} (h : bytes.length < 26) :
    s.loadFrame bytes = .next { s with fb := Memory.ofBytes 0 bytes, flen := ⟨bytes.length, h⟩ } :=
  dif_pos h

/-- A load that answers a next state was of at most 25 bytes (R78). -/
theorem State.loadFrame_next {s t : State} {bytes : List Byte} (h : s.loadFrame bytes = .next t) :
    ∃ hl : bytes.length < 26,
      t = { s with fb := Memory.ofBytes 0 bytes, flen := ⟨bytes.length, hl⟩ } := by
  unfold State.loadFrame at h
  split at h
  · cases h; exact ⟨‹_›, rfl⟩
  · cases h

end Sys2Proof.Machine
end

