-- ==== Sys2Proof/Machine/Assembler.lean ====
section
/-! DEFINITION. The assembler spelling of commands and host directives (spec/30_encoding.md R76, R78;
log 19): one line per command, F operands as 32-bit patterns with the suffix f. No step reads it. -/

namespace Sys2Proof.Machine

/-- A 32-bit pattern in hexadecimal with the suffix f (R76). -/
def floatText (w : F) : String :=
  "0x" ++ String.ofList ((List.range 8).map fun i =>
    Nat.digitChar ((w.toNat >>> (4 * (7 - i))) % 16)) ++ "f"

/-- The channel window operand. -/
def windowText : Option ChannelWindow → String
  | none => "NULL"
  | some w => "[" ++ toString w.min.toNat ++ ", " ++ toString w.max.toNat ++ "]"

/-- The velocity range operand. -/
def velocityText : Option VelocityRange → String
  | none => "NULL"
  | some v => "[" ++ floatText v.min ++ ", " ++ floatText v.max ++ "]"

/-- The PWM range operand. -/
def pwmText : Option PwmRange → String
  | none => "NULL"
  | some r =>
    "[" ++ toString r.min.toInt ++ ", " ++ toString r.mid.toInt ++ ", " ++ toString r.max.toInt ++ "]"

/-- One command as a line of R76. A DRIVE without its motor adds NOMOTOR. -/
def commandText : Instr → String
  | .decode .present => "DECODE"
  | .decode .absent => "DECODE NULL"
  | .rdch k => "RDCH " ++ toString k.toNat
  | .parchk flag => "PARCHK " ++ toString flag.toNat
  | .ivel chan c v =>
    "IVEL " ++ toString chan.toNat ++ ", " ++ windowText c ++ ", " ++ velocityText v
  | .ipwm chan c r =>
    "IPWM " ++ toString chan.toNat ++ ", " ++ windowText c ++ ", " ++ pwmText r
  | .drive chan c .present => "DRIVE " ++ toString chan.toNat ++ ", " ++ windowText c
  | .drive chan c .absent =>
    "DRIVE " ++ toString chan.toNat ++ ", " ++ windowText c ++ ", NOMOTOR"
  | .stepint rpm => "STEPINT " ++ toString rpm.toNat

/-- One host directive as a line of R78; a single command byte has no spelling there. -/
def directiveText : HostMove → Option String
  | .cmdByte _ => none
  | .loadFrame bytes =>
    some (bytes.foldl (fun line b => line ++ " " ++ toString b.toNat) "LOADFRAME")
  | .pins a => some ("PINS " ++ toString a.dir.toInt ++ ", " ++ toString a.step.toInt)
  | .reset => some "RESET"

end Sys2Proof.Machine
end

