-- ==== Sys2Proof/Tests/Slice0.lean ====
section
/-! SUPPORT. Small tests: the checks of WellFormed and of the decoder, words written out from the
formats of the spec, test vectors of spec/95_test_vectors.md, and for every statement with hypotheses
a state and operands that meet them. Expected results are the spec's. -/

namespace Sys2Proof.Tests

open Sys2Proof Sys2Proof.Machine

/-! ### Helpers -/

/-- The status code and the result of the response after an outcome. -/
def answerOf : Host.Outcome State Fault Refusal → Option (BitVec 4 × BitVec 32)
  | .next t => t.resp.map fun r => (r.status.code, r.result)
  | .fault _ => none
  | .refused _ => none

/-- The status code alone, where the result is left open. -/
def codeOf : Host.Outcome State Fault Refusal → Option (BitVec 4)
  | .next t => t.resp.map fun r => r.status.code
  | .fault _ => none
  | .refused _ => none

/-- A field of the next state. -/
def after {α : Type} (field : State → α) : Host.Outcome State Fault Refusal → Option α
  | .next t => some (field t)
  | .fault _ => none
  | .refused _ => none

/-- The frame of V-DEC-11. -/
def frame11 : List Byte :=
  [0x0F, 0xAC, 0x98, 0x38, 0xF8, 0xD0, 0x67, 0x3B, 0x0D, 0xD6, 0x6E, 0x83, 0xE3, 0x6B, 0x9F, 0xF8,
   0xDC, 0x07, 0x80, 0xFF, 0x03, 0x30, 0x00, 0x3F, 0x00]

/-- Reset with a frame of at most 25 bytes loaded. -/
def loaded (bytes : List Byte) : State :=
  { State.reset with fb := Memory.ofBytes 0 bytes, flen := Fin.ofNat 26 bytes.length }

/-- Reset with the frame of V-DEC-11 loaded. -/
def loaded11 : State := loaded frame11

/-- Reset with one channel's value known and CHV set. -/
def validBank : State := { State.reset with ch := State.reset.ch.set 13 2047, chv := true }

/-- Reset with the host's moves given. -/
def hosted (moves : List HostMove) : State := { State.reset with host := moves }

/-! ### Well-formed or not (R65, R71, R78) -/

theorem test_frame_of_25_is_well_formed : frameWellFormed (List.replicate 25 0) = true := by decide
theorem test_frame_of_26_is_refused : frameWellFormed (List.replicate 26 0) = false := by decide
theorem test_long_frame_is_no_move :
    step (hosted [.loadFrame (List.replicate 26 0)]) = .refused .frameTooLong := rfl
theorem test_reserved_opcode_is_refused :
    commandWellFormed [0x07] = false ∧ decode [0x07] = .error .reservedOpcode := by decide
theorem test_reserved_header_bits_are_refused :
    commandWellFormed [0x28] = false ∧ decode [0x28] = .error .reservedHeaderBits := by decide
theorem test_present_bit_is_refused :
    commandWellFormed [0x09, 0x00] = false ∧ decode [0x09, 0x00] = .error .presentBit := by decide
theorem test_index_bits_are_refused :
    commandWellFormed [0x01, 0x10] = false ∧ decode [0x01, 0x10] = .error .reservedIndexBits := by
  decide
theorem test_wrong_length_is_refused :
    commandWellFormed [0x01] = false ∧ decode [0x01] = .error .wrongLength ∧
      decode [] = .error .wrongLength := by decide
theorem test_check_order : decode [0x2F] = .error .reservedOpcode ∧
    decode [0x29, 0x10] = .error .reservedHeaderBits ∧ decode [0x09, 0x10] = .error .presentBit := by
  decide
theorem test_every_record_is_well_formed :
    (Instr.drive 0 (some ⟨9, 3⟩) .absent).wellFormed = true := by decide

/-! ### Words written out from the formats of R61 to R67: 000, P1, P0, OP and then the fields -/

theorem test_word_decode : decode [0b00001000] = .ok (.decode .present) ∧
    decode [0b00000000] = .ok (.decode .absent) := by decide
theorem test_word_rdch : decode [0b00000001, 0b00001101] = .ok (.rdch 13) := by decide
theorem test_word_parchk : decode [0b00000010, 0b11000000] = .ok (.parchk 0xC0) := by decide
/-- The encoding of V-IVEL-05. -/
theorem test_word_ivel : decode
    [0b00011011, 0x64, 0x01, 0x64, 0x00, 0x64, 0x04, 0x00, 0x00, 0x80, 0xBF, 0x00, 0x00, 0x80, 0x3F] =
    .ok (.ivel 356 (some ⟨100, 1124⟩) (some ⟨0xBF800000, 0x3F800000⟩)) := by decide
/-- The encoding of V-IPWM-16. -/
theorem test_word_ipwm : decode
    [0b00011100, 0xB6, 0x03, 0x84, 0x03, 0xE8, 0x03, 0xE8, 0x03, 0x00, 0x00, 0xDC, 0x05, 0x00, 0x00,
     0xD0, 0x07, 0x00, 0x00] =
    .ok (.ipwm 950 (some ⟨900, 1000⟩) (some ⟨1000, 1500, 2000⟩)) := by decide
theorem test_word_drive : decode [0b00011101, 0xDC, 0x05, 0xC8, 0x00, 0x78, 0x05] =
    .ok (.drive 1500 (some ⟨200, 1400⟩) .present) := by decide
theorem test_word_stepint : decode [0b00000110, 0x2C, 0x01] = .ok (.stepint 300) := by decide
theorem test_absent_operands : decode [0x05, 0x01, 0x00, 0xFF, 0xFF, 0xFF, 0xFF] =
    .ok (.drive 1 none .absent) := by decide
theorem test_encode_ipwm : encode (.ipwm 950 (some ⟨900, 1000⟩) (some ⟨1000, 1500, 2000⟩)) =
    [0x1C, 0xB6, 0x03, 0x84, 0x03, 0xE8, 0x03, 0xE8, 0x03, 0x00, 0x00, 0xDC, 0x05, 0x00, 0x00,
     0xD0, 0x07, 0x00, 0x00] := by decide

/-! ### Words as the opcode table numbers their bits -/

theorem test_table_word_rdch : decodeTableWord 16 0x0D01 = some (.rdch 13) := by decide
theorem test_table_word_stepint : decodeTableWord 24 0x012C06 = some (.stepint 300) := by decide
/-- The match of the IVEL row alone: every operand byte 0. -/
theorem test_table_word_ivel : decodeTableWord 120 0x03 = some (.ivel 0 none none) := by decide
theorem test_table_word_runs :
    answerOf (step (State.reset.withFetchWord 16 0x3F02)) = some (0, 1) := by decide
theorem test_table_word_advances :
    after (fun t => (t.cp, t.host)) (step (State.reset.withFetchWord 56 0x05)) = some (7, []) := by
  decide
theorem test_nothing_placed : step State.reset = .refused .endOfStream := rfl

/-! ### The commands, one step each -/

/-- V-DEC-11: the whole bank. -/
theorem test_decode_vector : after State.ch (exec (.decode .present) loaded11) =
    some #v[172, 1811, 992, 1000, 950, 1050, 949, 1051, 995, 1005, 994, 1006, 0, 2047, 1024, 1] := by
  decide
/-- V-DEC-53 and its neighbour: 23 bytes are enough, 22 are not. -/
theorem test_decode_length : answerOf (exec (.decode .present) (loaded (frame11.take 23))) =
      some (0, 0) ∧ codeOf (exec (.decode .present) (loaded (frame11.take 22))) = some 9 := by decide
theorem test_rdch_vector : answerOf (exec (.rdch 13) validBank) = some (0, 2047) := by decide
/-- V-RD-05. -/
theorem test_rdch_invalid : codeOf (exec (.rdch 0) State.reset) = some 10 ∧
    after State.flt (exec (.rdch 0) State.reset) = some 0b00100 := by decide
/-- S2: the flag bytes at the edge of the mask. -/
theorem test_parchk_vectors : answerOf (exec (.parchk 0x3F) State.reset) = some (0, 1) ∧
    answerOf (exec (.parchk 0x40) State.reset) = some (0, 0) := by decide
/-- V-IVEL-33: a result that is rounded. -/
theorem test_ivel_vector : answerOf (exec
    (.ivel 500 (some ⟨172, 1811⟩) (some ⟨0xBF800000, 0x3F800000⟩)) State.reset) =
    some (0, 0xBF19899C) := by decide
/-- V-IVEL-92: the sum of -0.0 and +0.0. -/
theorem test_ivel_signed_zero : answerOf (exec
    (.ivel 100 (some ⟨100, 200⟩) (some ⟨0x80000000, 0x3F800000⟩)) State.reset) = some (0, 0) := by
  decide
/-- V-IPWM-16. -/
theorem test_ipwm_vector : answerOf (exec
    (.ipwm 950 (some ⟨900, 1000⟩) (some ⟨1000, 1500, 2000⟩)) State.reset) = some (0, 750) := by decide
/-- V-IPWM-68. -/
theorem test_ipwm_range : codeOf (exec
    (.ipwm 2 (some ⟨0, 2⟩) (some ⟨2147483647, 0, BitVec.ofInt 32 (-2)⟩)) State.reset) = some 12 := by
  decide
/-- V-DRV-06. -/
theorem test_drive_pin_error :
    answerOf (exec (.drive 1401 (some ⟨200, 1400⟩) .present)
      { State.reset with pins := ⟨0, BitVec.ofInt 32 (-5)⟩ }) = some (4, 0xFFFFFFFB) := by decide
/-- V-DRV-08: the failures cancel, and both pins are written low. -/
theorem test_drive_failures_cancel :
    let o := exec (.drive 100 (some ⟨200, 1400⟩) .present)
      { State.reset with pins := ⟨1, BitVec.ofInt 32 (-1)⟩ }
    answerOf o = some (0, 0) ∧ after State.pinev o = some [⟨.dir, false⟩, ⟨.step, false⟩] := by decide
/-- V-STP-05 and V-STP-01. -/
theorem test_stepint_vectors : answerOf (exec (.stepint 7) State.reset) = some (0, 0x47276925) ∧
    answerOf (exec (.stepint 0) State.reset) = some (0, 0) := by decide

/-! ### The alternative of U3, the response's bytes, the assembler's spelling -/

/-- V-IPWM-30 to V-IPWM-32 with PWM_ARITH = float_trunc. -/
theorem test_float_trunc :
    let p : Params := { params with pwmArith := .floatTrunc }
    let r : PwmRange := ⟨1000, 1500, 2000⟩
    pwm p 0x7FC00000 600 ⟨200, 1800⟩ r = .ok 875 ∧ pwm p 0x7FC00000 1800 ⟨200, 1800⟩ r = .ok 500 ∧
      pwm p 0x7FC00000 850 ⟨700, 1007⟩ r = .ok 755 := by decide
/-- V-RD-02: the bytes of its response. -/
theorem test_response_bytes :
    Response.bytes ⟨.ok, 1811⟩ = [0x00, 0x13, 0x07, 0x00, 0x00] := by decide
theorem test_drive_text :
    commandText (.drive 1500 (some ⟨200, 1400⟩) .present) = "DRIVE 1500, [200, 1400]" := by decide
theorem test_pins_text :
    directiveText (.pins ⟨0, BitVec.ofInt 32 (-5)⟩) = some "PINS 0, -5" := by decide

/-! ### Witnesses: a state and operands that meet the hypotheses of each statement, one theorem per
statement (more where it has several clauses), at the edges of the ranges -/

/-- A value for every payload byte of `loaded11`. -/
def payload11 (i : Nat) : Byte := frame11.getD i 0

theorem payload_of_loaded11 : PayloadIs loaded11 payload11 := by
  intro i h1 h2
  interval_cases i <;> decide

theorem loaded_frame (bytes : List Byte) (h : bytes.length ≤ 25) : FrameLoaded (loaded bytes) := by
  have hl : ((loaded bytes).flen).val = bytes.length := Nat.mod_eq_of_lt (by omega)
  exact ⟨Memory.wf_ofBytes bytes h, by
    rw [hl, List.range_eq_range']; exact Memory.ofBytes_map_fst bytes 0⟩

theorem inv_of_loaded11 : Inv loaded11 :=
  ⟨loaded_frame frame11 (by decide), ⟨by decide, by decide, by decide⟩, fun r h => by cases h⟩

/-- A host move and the moves after it leave the invariant as it is. -/
theorem inv_hosted (moves : List HostMove) : Inv (hosted moves) :=
  ⟨⟨Memory.wf_reset, rfl⟩, ⟨rfl, rfl, rfl⟩, fun r h => by cases h⟩

theorem witness_OpcodeMapDecidesLegality :
    (⟨1, 0xF7, 0x00⟩ : OpcodeRow) ∈ opcodeRows ∧ (⟨1, 0xF7, 0x00⟩ : OpcodeRow).accepts [0x08] = true ∧
      (⟨2, 0xF0FF, 0x0001⟩ : OpcodeRow) ∈ opcodeRows ∧
      (⟨2, 0xF0FF, 0x0001⟩ : OpcodeRow).accepts [0x01, 0x0F] = true ∧
      (⟨2, 0xF0FF, 0x0001⟩ : OpcodeRow).accepts [0x01, 0x10] = false := by decide

/-- Both sides of the equivalence. -/
theorem witness_ListedEncodingsAreTheIllegalOnes :
    [(0x0F : Byte)].length + 1 = tableLength 0x01 ∧ [(0x10 : Byte)].length + 1 = tableLength 0x01 ∧
      ¬ IllegalEncoding [0x01, 0x0F] ∧ IllegalEncoding [0x01, 0x10] := by
  simp [tableLength, IllegalEncoding]

theorem witness_AbsentFieldsAreIgnored :
    ((0x13 : Byte).toNat / 8 % 2 = 0 ∧ [(1 : Byte), 2, 3, 4].length = 4 ∧
        [(5 : Byte), 6, 7, 8].length = 4) ∧
      ((0x0B : Byte).toNat / 16 % 2 = 0 ∧ [(1 : Byte), 0, 0, 0, 9, 0].length = 6 ∧
        (List.replicate 8 (1 : Byte)).length = (List.replicate 8 (2 : Byte)).length) := by decide

theorem witness_StepRunsDecodedCommand :
    (hosted [.cmdByte 0x01, .cmdByte 0x0D, .reset]).host =
        [(0x01 : Byte), 0x0D].map .cmdByte ++ [.reset] ∧
      decode [0x01, 0x0D] = .ok (.rdch 13) := by decide

/-- One witness per check of R65: OP = 7, RSV, a present bit, the index bits. -/
theorem witness_IllegalCommandSetsOnlyItsBit :
    ∀ p ∈ ([(0x07, []), (0x20, []), (0x10, []), (0x09, [0x00]), (0x01, [0x10])] :
        List (Byte × List Byte)),
      (hosted ((p.1 :: p.2).map .cmdByte ++ [.reset])).host =
          (p.1 :: p.2).map .cmdByte ++ [.reset] ∧
        p.2.length + 1 = tableLength p.1 ∧ IllegalEncoding (p.1 :: p.2) := by
  simp [hosted, tableLength, IllegalEncoding]

theorem witness_TruncatedStreamIsRefused :
    (hosted [.cmdByte 0x01]).host = [(0x01 : Byte)].map .cmdByte ∧
      ([] : List Byte).length + 1 < tableLength 0x01 ∧
      (hosted ((0x04 :: List.replicate 17 (0 : Byte)).map .cmdByte)).host =
        (0x04 :: List.replicate 17 (0 : Byte)).map .cmdByte ∧
      (List.replicate 17 (0 : Byte)).length + 1 < tableLength 0x04 := by decide

/-- The shortest and the longest frame. -/
theorem witness_LoadFrameFillsBuffer :
    ((hosted [.loadFrame []]).host = .loadFrame [] :: [] ∧ ([] : List Byte).length ≤ 25) ∧
      (hosted [.loadFrame frame11]).host = .loadFrame frame11 :: [] ∧ frame11.length ≤ 25 := by decide

theorem witness_PinsMoveSetsAnswers :
    (hosted [.pins ⟨1, 2⟩, .reset]).host = .pins ⟨1, 2⟩ :: [.reset] := by decide

theorem witness_ResetGivesStatedValues :
    (hosted [.reset, .cmdByte 0x08]).host = .reset :: [.cmdByte 0x08] := by decide

/-- A step that runs a command and one that makes another move. -/
theorem witness_CommandAdvancesStream :
    (∃ t, step (hosted [.cmdByte 0x02, .cmdByte 0x3F]) = .next t) ∧
      (hosted [.cmdByte 0x02, .cmdByte 0x3F]).host = .cmdByte 0x02 :: [.cmdByte 0x3F] ∧
      (∃ t, step (hosted [.pins ⟨1, 2⟩]) = .next t) ∧
      ∀ h moves, (hosted [.pins ⟨1, 2⟩]).host ≠ .cmdByte h :: moves :=
  ⟨⟨_, rfl⟩, rfl, ⟨_, rfl⟩, fun h moves he => by cases he⟩

theorem witness_DecodeFillsBankFromTable :
    PayloadIs loaded11 payload11 ∧ 23 ≤ loaded11.flen.val := ⟨payload_of_loaded11, by decide⟩

/-- The first and the last bit of the payload. -/
theorem witness_DecodeWiresEveryPayloadBit :
    (PayloadIs loaded11 payload11 ∧ 23 ≤ loaded11.flen.val) ∧
      8 * (1 - 1) + 0 = 11 * (0 : Fin 16).val + 0 ∧ 8 * (22 - 1) + 7 = 11 * (15 : Fin 16).val + 10 :=
  ⟨⟨payload_of_loaded11, by decide⟩, by decide, by decide⟩

theorem witness_DecodeIsOneBitstream :
    PayloadIs loaded11 payload11 ∧ 23 ≤ loaded11.flen.val := ⟨payload_of_loaded11, by decide⟩

/-- FLEN = 0 and 22; FLEN = 23 beside 25 with one payload. -/
theorem witness_DecodeLooksAtLengthAndPayloadOnly :
    (State.reset.flen.val < 23 ∧ (loaded (frame11.take 22)).flen.val < 23) ∧
      23 ≤ loaded11.flen.val ∧ 23 ≤ (loaded (frame11.take 23)).flen.val ∧
      (∀ i, 1 ≤ i → i ≤ 22 →
        Memory.read (loaded (frame11.take 23)).fb i = Memory.read loaded11.fb i) ∧
      ∃ t, exec (.decode .present) loaded11 = .next t := by
  refine ⟨by decide, by decide, by decide, fun i h1 h2 => ?_, ⟨_, rfl⟩⟩
  interval_cases i <;> decide

theorem witness_RdchReadsBank : validBank.chv = true ∧ State.reset.chv = false := by decide

theorem witness_ParchkChecksTopBits :
    (0x3F : Byte).toNat ≤ 0x3F ∧ 0x3F < (0x40 : Byte).toNat ∧ 0x3F < (0xFF : Byte).toNat := by decide

theorem witness_DecodeThenRdchLiteral :
    let s := loaded (0x00 :: 0x01 :: 0xFF :: List.replicate 22 0)
    FrameLoaded s ∧ 23 ≤ s.flen.val ∧ Memory.read s.fb 1 = some 0x01 ∧
      Memory.read s.fb 2 = some 0xFF :=
  ⟨loaded_frame _ (by decide), by decide, by decide, by decide⟩

/-- Below, above, both ends of the deadzone, both ends of the window, and both its neighbours. -/
theorem witness_IvelInterpolates :
    let w : ChannelWindow := ⟨100, 1124⟩
    (∀ chan ∈ [99, 1125, 950, 1050, 949, 1051, 100, 1124],
      ¬ (chan = w.min ∧ w.max = w.min ∧ ¬ InDeadzone 950 1050 chan)) ∧
    (99 : U16).toNat < w.min.toNat ∧ (w.min.toNat ≤ (1125 : U16).toNat ∧
      w.max.toNat < (1125 : U16).toNat) ∧
    (∀ chan ∈ [950, 1050], Inside chan w ∧ InDeadzone 950 1050 chan) ∧
    (∀ chan ∈ [949, 1051, 100, 1124], Inside chan w ∧ ¬ InDeadzone 950 1050 chan) := by
  simp [Inside, InDeadzone]

/-- A NaN operand inside and outside the deadzone, and opposite infinities inside it. -/
theorem witness_IvelPassesOperandsAndNaNs :
    let w : ChannelWindow := ⟨100, 1124⟩
    (99 : U16).toNat < w.min.toNat ∧ (w.min.toNat ≤ (1125 : U16).toNat ∧
      w.max.toNat < (1125 : U16).toNat) ∧
    (Inside 950 w ∧ InDeadzone 950 1050 950) ∧
    (Inside 949 w ∧ (InDeadzone 950 1050 949 ∨ w.min ≠ w.max)) ∧ isNaN 0x7FC00001 = true := by
  refine ⟨by decide, by decide, ?_, ?_, by decide⟩ <;> simp [Inside, InDeadzone]

theorem witness_IvelWithoutRange :
    ((none : Option ChannelWindow) = none ∨ (some ⟨0, 0⟩ : Option VelocityRange) = none) ∧
      ((some ⟨0, 9⟩ : Option ChannelWindow) = none ∨ (none : Option VelocityRange) = none) :=
  ⟨.inl rfl, .inr rfl⟩

/-- DivZero is answered just outside the deadzone, on both sides, and not on its ends. -/
theorem witness_IvelDivZeroExactly :
    codeOf (exec (.ivel 949 (some ⟨949, 949⟩) (some ⟨0, 0⟩)) State.reset) = some 11 ∧
    codeOf (exec (.ivel 1051 (some ⟨1051, 1051⟩) (some ⟨0, 0⟩)) State.reset) = some 11 ∧
    codeOf (exec (.ivel 950 (some ⟨950, 950⟩) (some ⟨0, 0⟩)) State.reset) = some 0 ∧
    codeOf (exec (.ivel 1050 (some ⟨1050, 1050⟩) (some ⟨0, 0⟩)) State.reset) = some 0 := by decide

theorem witness_IvelInvertedWindow :
    (⟨1000, 500⟩ : ChannelWindow).max.toNat < (⟨1000, 500⟩ : ChannelWindow).min.toNat := by decide

/-- Below, above, both ends of the deadzone, both its neighbours and both ends of the window. -/
theorem witness_IpwmFollowsFormula :
    let w : ChannelWindow := ⟨700, 1007⟩
    let r : PwmRange := ⟨1000, 1500, 2000⟩
    (699 : U16).toNat < w.min.toNat ∧ (w.min.toNat ≤ (1008 : U16).toNat ∧
      w.max.toNat < (1008 : U16).toNat) ∧
    (∀ chan ∈ [995, 1005], Inside chan w ∧ InDeadzone 995 1005 chan) ∧
    (∀ chan ∈ [994, 1006, 700, 1007], Inside chan w ∧ ¬ InDeadzone 995 1005 chan ∧
      w.min ≠ w.max ∧ -2 ^ 31 ≤ pwmFormula chan w r ∧ pwmFormula chan w r ≤ 2 ^ 31 - 1) ∧
    codeOf (exec (.ipwm 994 (some w) (some r)) State.reset) = some 0 := by
  refine ⟨by decide, by decide, ?_, ?_, by decide⟩ <;> simp [Inside, InDeadzone, pwmFormula]

/-- The greatest result that fits and the one after it, the least that fits and the one before it. -/
theorem witness_IpwmResultRangeExactly :
    answerOf (exec (.ipwm 1 (some ⟨0, 1⟩) (some ⟨2147483646, 1, 0⟩)) State.reset) =
      some (0, 2147483647) ∧
    codeOf (exec (.ipwm 1 (some ⟨0, 1⟩) (some ⟨2147483647, 1, 0⟩)) State.reset) = some 12 ∧
    answerOf (exec (.ipwm 1 (some ⟨0, 1⟩) (some ⟨BitVec.ofInt 32 (-2147483647), 0, 1⟩))
      State.reset) = some (0, 0x80000000) ∧
    codeOf (exec (.ipwm 1 (some ⟨0, 1⟩) (some ⟨0x80000000, 0, 1⟩)) State.reset) = some 12 := by decide

/-- DivZero is answered just outside the deadzone, on both sides, and not on its ends. -/
theorem witness_IpwmDivZeroExactly :
    codeOf (exec (.ipwm 994 (some ⟨994, 994⟩) (some ⟨0, 0, 0⟩)) State.reset) = some 11 ∧
    codeOf (exec (.ipwm 1006 (some ⟨1006, 1006⟩) (some ⟨0, 0, 0⟩)) State.reset) = some 11 ∧
    codeOf (exec (.ipwm 995 (some ⟨995, 995⟩) (some ⟨0, 0, 0⟩)) State.reset) = some 0 ∧
    codeOf (exec (.ipwm 1005 (some ⟨1005, 1005⟩) (some ⟨0, 0, 0⟩)) State.reset) = some 0 := by decide

theorem witness_IpwmWithoutRange :
    ((none : Option ChannelWindow) = none ∨ (some ⟨0, 0, 0⟩ : Option PwmRange) = none) ∧
      ((some ⟨0, 9⟩ : Option ChannelWindow) = none ∨ (none : Option PwmRange) = none) :=
  ⟨.inl rfl, .inr rfl⟩

theorem witness_IpwmFallsInUsualOrder :
    let w : ChannelWindow := ⟨900, 1000⟩
    let r : PwmRange := ⟨1000, 1500, 2000⟩
    r.mid.toInt < r.max.toInt ∧ Inside 940 w ∧ Inside 950 w ∧ ¬ InDeadzone 995 1005 940 ∧
      ¬ InDeadzone 995 1005 950 ∧ (940 : U16).toNat ≤ (950 : U16).toNat ∧
      Answers (.ipwm 940 (some w) (some r)) State.reset 0 800 ∧
      Answers (.ipwm 950 (some w) (some r)) State.reset 0 750 := by
  refine ⟨by decide, ?_, ?_, ?_, ?_, by decide, ⟨_, rfl, _, rfl, rfl, by decide⟩,
    ⟨_, rfl, _, rfl, rfl, by decide⟩⟩ <;> simp [Inside, InDeadzone]

/-- The threshold: at cmax backward, one above it forward. -/
theorem witness_DriveWritesBothPins :
    after State.dirOut (exec (.drive 1400 (some ⟨200, 1400⟩) .present) State.reset) = some false ∧
    after State.dirOut (exec (.drive 1401 (some ⟨200, 1400⟩) .present) State.reset) = some true := by
  decide

theorem witness_DriveWithoutOperand :
    ((none : Option ChannelWindow) = none ∨ Presence.present = .absent) ∧
      ((some ⟨0, 9⟩ : Option ChannelWindow) = none ∨ Presence.absent = .absent) :=
  ⟨.inl rfl, .inr rfl⟩

theorem witness_DriveRepeatMakesNoEdge :
    (∃ t u, exec (.drive 1500 (some ⟨200, 1400⟩) .present) State.reset = .next t ∧
      exec (.drive 1600 (some ⟨0, 1599⟩) .present) t = .next u) ∧
      ((1400 : U16).toNat < (1500 : U16).toNat ↔ (1599 : U16).toNat < (1600 : U16).toNat) :=
  ⟨⟨_, _, rfl, rfl⟩, by decide⟩

theorem witness_StepintRoundsQuotient : (0 : U16) = 0 ∧ (1 : U16) ≠ 0 ∧ (65535 : U16) ≠ 0 := by decide

theorem witness_StepintIsPositiveNormal :
    (1 : U16) ≠ 0 ∧ Answers (.stepint 1) State.reset 0 0x48927C00 :=
  ⟨by decide, _, rfl, _, rfl, rfl, by decide⟩

/-- 1.0, and the least subnormal number. -/
theorem witness_FaddAndFsubRoundOnce :
    finiteF 0x3F800000 = true ∧ finiteF 0x00000001 = true := by decide

/-- 1.0, and the greatest finite number. -/
theorem witness_FmulRoundsOnce : finiteF 0x3F800000 = true ∧ finiteF 0x7F7FFFFF = true := by decide

theorem witness_FdivRoundsOnce :
    finiteF 0x3F800000 = true ∧ finiteF 0x40000000 = true ∧ valueF 0x40000000 ≠ 0 := by
  have h : unpack 0x40000000 = .fin false 8388608 (-22) := by decide
  refine ⟨by decide, by decide, ?_⟩
  rw [valueF, h]
  norm_num

theorem witness_IntegerConversionRoundsOnce :
    (16777215 : Int).natAbs < 2 ^ 24 ∧ (-16777215 : Int).natAbs < 2 ^ 24 := by decide

/-- A command, and each of the other moves. -/
theorem witness_StepKeepsTheInvariant :
    (Inv (hosted [.cmdByte 0x06, .cmdByte 1, .cmdByte 0]) ∧
      ∃ t, step (hosted [.cmdByte 0x06, .cmdByte 1, .cmdByte 0]) = .next t) ∧
    (Inv (hosted [.loadFrame frame11]) ∧ ∃ t, step (hosted [.loadFrame frame11]) = .next t) ∧
    (Inv (hosted [.pins ⟨1, 2⟩]) ∧ ∃ t, step (hosted [.pins ⟨1, 2⟩]) = .next t) ∧
    Inv (hosted [.reset]) ∧ ∃ t, step (hosted [.reset]) = .next t :=
  ⟨⟨inv_hosted _, _, rfl⟩, ⟨inv_hosted _, _, rfl⟩, ⟨inv_hosted _, _, rfl⟩, inv_hosted _, _, rfl⟩

theorem witness_NoStepStopsWithFault : Inv (hosted [.cmdByte 0x08]) ∧ Inv loaded11 :=
  ⟨inv_hosted _, inv_of_loaded11⟩

theorem witness_EveryCommandAnswersAListedStatus : FrameLoaded State.reset ∧ FrameLoaded loaded11 :=
  ⟨loaded_frame [] (by decide), loaded_frame frame11 (by decide)⟩

/-- A command that raises a fault, a move other than RESET, and RESET; a command run by itself. -/
theorem witness_FltGainsTheAnsweredFault :
    codeOf (step (hosted [.cmdByte 0x01, .cmdByte 0x00])) = some 10 ∧
      (∃ t, step (hosted [.pins ⟨1, 2⟩]) = .next t) ∧ (∃ t, step (hosted [.reset]) = .next t) ∧
      ∃ t, exec (.rdch 0) State.reset = .next t :=
  ⟨by decide, ⟨_, rfl⟩, ⟨_, rfl⟩, _, rfl⟩

/-- A command of each kind the clauses tell apart: DECODE with no buffer, with a short one and with a
long one, RDCH, and the others. -/
theorem witness_BankUsedOnlyByDecodeAndRdch :
    (∃ t, exec (.decode .absent) State.reset = .next t) ∧
      (∃ t, exec (.decode .present) State.reset = .next t) ∧
      (∃ t, exec (.decode .present) loaded11 = .next t) ∧
      (∃ t, exec (.rdch 13) validBank = .next t) ∧
      (∃ t, exec (.parchk 0) State.reset = .next t) ∧
      ∃ t, exec (.drive 1 (some ⟨0, 0⟩) .present) State.reset = .next t :=
  ⟨⟨_, rfl⟩, ⟨_, rfl⟩, ⟨_, rfl⟩, ⟨_, rfl⟩, ⟨_, rfl⟩, _, rfl⟩

theorem witness_PinsWrittenOnlyByDrive :
    (∃ t, exec (.decode .absent) State.reset = .next t) ∧
      ∃ t, step (hosted [.cmdByte 0x05, .cmdByte 0, .cmdByte 0, .cmdByte 0, .cmdByte 0, .cmdByte 0,
        .cmdByte 0]) = .next t := ⟨⟨_, rfl⟩, _, rfl⟩

theorem witness_NoCommandWritesFrame :
    ∃ t, exec (.decode .present) loaded11 = .next t := ⟨_, rfl⟩

end Sys2Proof.Tests
end

section
/-! The operations on `F` (spec/00_scope.md R14): on finite operands each one is a single `roundPack`
of the exact result, so each obligation is that equation, the exact result in ℚ, and
`roundPack_roundsTo`. -/

namespace Sys2Proof.Machine

/-! ### Finite patterns and their numbers -/

theorem finiteF_iff {w : F} : finiteF w = true ↔ ∃ neg m e, unpack w = .fin neg m e := by
  unfold finiteF
  cases unpack w <;> simp

theorem valueF_of_unpack {w : F} {neg : Bool} {m : Nat} {e : Int} (h : unpack w = .fin neg m e) :
    valueF w = signQ neg * m * 2 ^ e := by
  simp only [valueF, h, signQ]

theorem signQ_xor (x y : Bool) : signQ (x ^^ y) = signQ x * signQ y := by
  cases x <;> cases y <;> simp [signQ]

theorem signQ_not (x : Bool) : signQ (!x) = -signQ x := by
  cases x <;> simp [signQ]

theorem signQ_div_signQ (x y : Bool) : signQ x / signQ y = signQ x * signQ y := by
  cases y <;> simp [signQ, div_neg]

theorem signQ_mul_natAbs (s : Int) : signQ (decide (s < 0)) * s.natAbs = s := by
  rcases lt_or_ge s 0 with h | h
  · simp [signQ, h, Nat.cast_natAbs, abs_of_neg h]
  · simp [signQ, not_lt.mpr h, Nat.cast_natAbs, abs_of_nonneg h]

/-- A zero of either sign is the number 0 rounded. -/
theorem roundsTo_signed_zero (neg : Bool) : RoundsTo 0 (signed neg 0) := by
  simpa [roundPack] using roundPack_roundsTo neg 0 1 0 one_pos

/-- An integer times a power of two, rounded once. -/
theorem roundPack_int_roundsTo (s e : Int) :
    RoundsTo (s * 2 ^ e) (roundPack (decide (s < 0)) s.natAbs 1 e) := by
  have h := roundPack_roundsTo (decide (s < 0)) s.natAbs 1 e one_pos
  rwa [Nat.cast_one, div_one, ← mul_assoc, signQ_mul_natAbs] at h

/-- Rounding keeps a number that some finite pattern stands for. -/
theorem RoundsTo.valueF_eq {x : ℚ} {w y : F} (h : RoundsTo x w)
    (hx : |x| < 2 ^ 128 - 2 ^ 103) (hy : finiteF y = true) (hyx : valueF y = x) :
    valueF w = x := by
  unfold RoundsTo at h
  rw [if_neg (not_le.mpr hx)] at h
  have hle := (h.2 y hy).1
  rw [hyx, sub_self, abs_zero] at hle
  exact sub_eq_zero.mp (abs_nonpos_iff.mp hle)

/-- Every natural number below 2^24, of either sign, is the number of a finite pattern. -/
theorem exists_valueF_nat (neg : Bool) {m : Nat} (hm : m < 2 ^ 24) :
    ∃ y, finiteF y = true ∧ valueF y = signQ neg * m := by
  rcases Nat.eq_zero_or_pos m with rfl | hpos
  · obtain ⟨hf, hv⟩ := valueF_signed neg (u := -149) (M := 0) (by omega) (by omega) (by omega)
      (by decide)
    exact ⟨_, hf, by simpa using hv⟩
  · -- shift the leading bit up to bit 23
    obtain ⟨k, hk⟩ : ∃ k, m.log2 + k = 23 :=
      ⟨23 - m.log2, Nat.add_sub_of_le (by have := (Nat.log2_lt hpos.ne').mpr hm; omega)⟩
    have hlo : 2 ^ 23 ≤ m * 2 ^ k := by
      rw [← hk, pow_add]
      exact Nat.mul_le_mul_right _ (Nat.log2_self_le hpos.ne')
    have hhi : m * 2 ^ k < 2 ^ 24 := by
      rw [show 24 = m.log2 + 1 + k by omega, pow_add]
      exact Nat.mul_lt_mul_of_pos_right Nat.lt_log2_self (by positivity)
    obtain ⟨hf, hv⟩ := valueF_signed neg (u := -(k : Int)) (M := m * 2 ^ k) (by omega) (.inr hlo)
      hhi.le (by omega)
    refine ⟨_, hf, ?_⟩
    rw [hv, zpow_neg, zpow_natCast]
    push_cast
    field_simp

/-! ### Each operation on finite operands -/

theorem unpack_fneg {w : F} {neg : Bool} {m : Nat} {e : Int} (h : unpack w = .fin neg m e) :
    unpack (fneg w) = .fin (!neg) m e := by
  have hsign : (fneg w).getLsbD 31 = !w.getLsbD 31 := by simp [fneg]
  have hexp : (fneg w).extractLsb' 23 8 = w.extractLsb' 23 8 := by
    rw [fneg, BitVec.extractLsb'_xor]
    simp
  have hfrac : (fneg w).extractLsb' 0 23 = w.extractLsb' 0 23 := by
    rw [fneg, BitVec.extractLsb'_xor]
    simp
  unfold unpack at h ⊢
  simp only [hsign, hexp, hfrac] at h ⊢
  -- of the four kinds, only the subnormal and the normal numbers are of the form `h` gives
  split_ifs at h ⊢
  · cases h; rfl
  · cases h; rfl

theorem finiteF_fneg {w : F} (h : finiteF w = true) : finiteF (fneg w) = true := by
  obtain ⟨neg, m, e, hw⟩ := finiteF_iff.mp h
  exact finiteF_iff.mpr ⟨_, _, _, unpack_fneg hw⟩

theorem valueF_fneg {w : F} (h : finiteF w = true) : valueF (fneg w) = -valueF w := by
  obtain ⟨neg, m, e, hw⟩ := finiteF_iff.mp h
  rw [valueF_of_unpack hw, valueF_of_unpack (unpack_fneg hw), signQ_not]
  ring

/-- The exact sum in units of the lower of the two last places. -/
theorem exactSum_mul (x : Bool) (m : Nat) (e : Int) (y : Bool) (n : Nat) (f : Int) :
    (exactSum x m e y n f : ℚ) * 2 ^ min e f = signQ x * m * 2 ^ e + signQ y * n * 2 ^ f := by
  have shift : ∀ g : Int, min e f ≤ g → (2 : ℚ) ^ (g - min e f).toNat * 2 ^ min e f = 2 ^ g := by
    intro g hg
    rw [← zpow_natCast, ← zpow_add₀ two_ne_zero]
    congr 1
    omega
  rw [← shift e (min_le_left e f), ← shift f (min_le_right e f)]
  unfold exactSum signQ
  push_cast
  ring

theorem fadd_roundsTo {nan a b : F} (ha : finiteF a = true) (hb : finiteF b = true) :
    RoundsTo (valueF a + valueF b) (fadd nan a b) := by
  obtain ⟨x, m, e, hua⟩ := finiteF_iff.mp ha
  obtain ⟨y, n, f, hub⟩ := finiteF_iff.mp hb
  have hadd : fadd nan a b =
      if exactSum x m e y n f = 0 then signed (x && y) 0
      else roundPack (decide (exactSum x m e y n f < 0)) (exactSum x m e y n f).natAbs 1
        (min e f) := by
    simp only [fadd, hua, hub]
  rw [hadd, valueF_of_unpack hua, valueF_of_unpack hub, ← exactSum_mul]
  split
  · next hzero => simpa [hzero] using roundsTo_signed_zero (x && y)
  · exact roundPack_int_roundsTo _ _

theorem fmul_roundsTo {nan a b : F} (ha : finiteF a = true) (hb : finiteF b = true) :
    RoundsTo (valueF a * valueF b) (fmul nan a b) := by
  obtain ⟨x, m, e, hua⟩ := finiteF_iff.mp ha
  obtain ⟨y, n, f, hub⟩ := finiteF_iff.mp hb
  have hmul : fmul nan a b = roundPack (x ^^ y) (m * n) 1 (e + f) := by simp only [fmul, hua, hub]
  have hexact : valueF a * valueF b =
      signQ (x ^^ y) * ((m * n : Nat) / (1 : Nat) * 2 ^ (e + f)) := by
    rw [valueF_of_unpack hua, valueF_of_unpack hub, signQ_xor, zpow_add₀ two_ne_zero]
    push_cast
    ring
  rw [hmul, hexact]
  exact roundPack_roundsTo _ _ _ _ one_pos

theorem fdiv_roundsTo {nan a b : F} (ha : finiteF a = true) (hb : finiteF b = true)
    (hne : valueF b ≠ 0) : RoundsTo (valueF a / valueF b) (fdiv nan a b) := by
  obtain ⟨x, m, e, hua⟩ := finiteF_iff.mp ha
  obtain ⟨y, n, f, hub⟩ := finiteF_iff.mp hb
  have hn : n ≠ 0 := by
    rintro rfl
    exact hne (by simp [valueF_of_unpack hub])
  have hdiv : fdiv nan a b = roundPack (x ^^ y) m n (e - f) := by
    simp only [fdiv, hua, hub, if_neg hn]
  have hexact : valueF a / valueF b = signQ (x ^^ y) * (m / n * 2 ^ (e - f)) := by
    rw [valueF_of_unpack hua, valueF_of_unpack hub, signQ_xor, ← signQ_div_signQ,
      zpow_sub₀ two_ne_zero, mul_div_mul_comm, mul_div_mul_comm, mul_assoc]
  rw [hdiv, hexact]
  exact roundPack_roundsTo _ _ _ _ (Nat.pos_of_ne_zero hn)

theorem i2f_roundsTo (n : Int) : RoundsTo n (i2f n) := by
  simpa [i2f] using roundPack_int_roundsTo n 0

theorem valueF_i2f {n : Int} (h : n.natAbs < 2 ^ 24) : valueF (i2f n) = n := by
  obtain ⟨y, hy, hv⟩ := exists_valueF_nat (decide (n < 0)) h
  rw [signQ_mul_natAbs] at hv
  have habs : |(n : ℚ)| < 2 ^ 24 := by
    rw [← Int.cast_abs, Int.abs_eq_natAbs]
    exact_mod_cast h
  exact (i2f_roundsTo n).valueF_eq (habs.trans (by norm_num)) hy hv

/-! ### The statements -/

/-- Settles O36: the difference is the sum with the operand's sign inverted. -/
theorem faddAndFsubRoundOnce : Obligations.FaddAndFsubRoundOnce := by
  intro nan a b ha hb
  refine ⟨fadd_roundsTo ha hb, ?_⟩
  rw [sub_eq_add_neg, ← valueF_fneg hb]
  exact fadd_roundsTo ha (finiteF_fneg hb)

/-- Settles O37. -/
theorem fmulRoundsOnce : Obligations.FmulRoundsOnce :=
  fun _ _ _ => fmul_roundsTo

/-- Settles O38. -/
theorem fdivRoundsOnce : Obligations.FdivRoundsOnce :=
  fun _ _ _ => fdiv_roundsTo

/-- Settles O39: below 2^24 the integer itself is the number of a pattern, so rounding keeps it. -/
theorem integerConversionRoundsOnce : Obligations.IntegerConversionRoundsOnce :=
  fun n => ⟨i2f_roundsTo n, valueF_i2f⟩

end Sys2Proof.Machine
end

section
/-! What a command reads and what it writes (spec/10_state.md R22, R25, R27, R28): `exec_effect` gives
each answered command its effect on the state, the same from every state that agrees on what the
command reads; the four statements of the family are read off the effects and the cases of a step. -/

namespace Sys2Proof.Machine

/-! ### The effect of a command -/

/-- What a command can do to the state once it is known what it has read. -/
inductive Effect : Instr → (State → State) → Prop where
  /-- A response that is no fault, and nothing else. -/
  | answer {i : Instr} {st : Status} (r : BitVec 32) (hi : i ≠ .decode .present)
      (hst : ∀ f, st ≠ .fault f) : Effect i fun s => s.respond st r
  /-- A value computed beside a drawn NaN (R14). -/
  | value {i : Instr} (r : BitVec 32) (hi : i ≠ .decode .present) :
      Effect i fun s => s.countDraw.respond .ok r
  /-- A fault, and nothing else (R183). -/
  | fault {i : Instr} (f : SpecFault) (hi : i ≠ .decode .present) : Effect i fun s => s.raise f
  /-- DECODE of a short buffer (R104). -/
  | shortBuffer : Effect (.decode .present) fun s => s.loseBank.clearValid.raise .shortBuffer
  /-- DECODE of a buffer (R100). -/
  | bank (b : Bank) : Effect (.decode .present) fun s => (s.setBank b).respond .ok 0
  /-- DRIVE with both pin writes (R150). -/
  | drive {chan : U16} {w : ChannelWindow} {st : Status} (fwd : Bool) (r : BitVec 32)
      (hst : ∀ f, st ≠ .fault f) :
      Effect (.drive chan (some w) .present) fun s => (drivePins fwd s).2.respond st r

/-- Two states agree on all that a command can read: FB and FLEN, the answers of the pin
environment, the draws and, for RDCH, the bank. -/
structure SameInputs (i : Instr) (s s' : State) : Prop where
  fb : s'.fb = s.fb
  flen : s'.flen = s.flen
  pins : s'.pins = s.pins
  draws : s'.draws = s.draws
  bank : ∀ k, i = .rdch k → s'.ch = s.ch ∧ s'.chv = s.chv

theorem SameInputs.refl (i : Instr) (s : State) : SameInputs i s s :=
  ⟨rfl, rfl, rfl, rfl, fun _ _ => ⟨rfl, rfl⟩⟩

/-- FLT is no input (R25). -/
theorem SameInputs.withFlt (i : Instr) (s : State) (before : BitVec 5) :
    SameInputs i s { s with flt := before } :=
  ⟨rfl, rfl, rfl, rfl, fun _ _ => ⟨rfl, rfl⟩⟩

/-- The bank is an input of RDCH alone (R22). -/
theorem SameInputs.withBank {i : Instr} (hi : ∀ k, i ≠ .rdch k) (s : State) (bank : Bank)
    (valid : Bool) : SameInputs i s { s with ch := bank, chv := valid } :=
  ⟨rfl, rfl, rfl, rfl, fun k hk => absurd hk (hi k)⟩

theorem exec_decode_present (s : State) : exec (.decode .present) s =
    if s.flen.val < 23 then .next (s.loseBank.clearValid.raise .shortBuffer)
    else match s.memReads 1 22 with
      | .error f => .fault f
      | .ok payload => .next ((s.setBank (channelTable (payloadByte payload))).respond .ok 0) := rfl

/-- DRIVE's two answers as one, by the sum of the statuses (R155). -/
theorem exec_drive_present (chan : U16) (w : ChannelWindow) (s : State) :
    exec (.drive chan (some w) .present) s =
      .next ((drivePins (forward chan w) s).2.respond
        (if s.pins.dir.toInt + s.pins.step.toInt = 0 then .ok else .pinError)
        (BitVec.ofInt 32 (s.pins.dir.toInt + s.pins.step.toInt))) := by
  have hsum : (drivePins (forward chan w) s).1 = s.pins.dir.toInt + s.pins.step.toInt := by
    rw [drivePins_eq]
  simp only [exec, execDrive, hsum]
  split
  · next h => rw [h]; rfl
  · rfl

/-- What a command does to the state depends on what it reads alone: it has one effect, from every
state that agrees with this one on its inputs. -/
theorem exec_effect {i : Instr} {s t : State} (h : exec i s = .next t) :
    ∃ e, Effect i e ∧ ∀ s', SameInputs i s s' → exec i s' = .next (e s') := by
  cases i with
  | decode buf =>
    cases buf with
    | absent => exact ⟨_, .answer (st := .nullBuffer) 0 (by simp) (by simp), fun _ _ => rfl⟩
    | present =>
      rw [exec_decode_present] at h
      split at h
      · next hlen =>
        exact ⟨_, .shortBuffer, fun s' hs => by rw [exec_decode_present, hs.flen, if_pos hlen]⟩
      · next hlen =>
        cases hm : s.memReads 1 22 with
        | error f => rw [hm] at h; cases h
        | ok payload =>
          exact ⟨_, .bank _, fun s' hs => by
            rw [exec_decode_present, hs.flen, if_neg hlen, State.memReads_congr hs.fb, hm]⟩
  | rdch k =>
    by_cases hv : s.chv
    · refine ⟨_, .answer (st := .ok) ((s.channel k).setWidth 32) (by simp) (by simp), ?_⟩
      intro s' hs
      obtain ⟨hch, hchv⟩ := hs.bank k rfl
      simp [exec, execRdch, State.channel, hch, hchv, hv]
    · refine ⟨_, .fault .chanInvalid (by simp), fun s' hs => ?_⟩
      obtain ⟨-, hchv⟩ := hs.bank k rfl
      simp [exec, execRdch, hchv, hv]
  | parchk flag => exact ⟨_, .answer (st := .ok) _ (by simp) (by simp), fun _ _ => rfl⟩
  | ivel chan crange vrange =>
    cases crange with
    | none => exact ⟨_, .answer (st := .nullRange) 0 (by simp) (by simp), fun _ _ => rfl⟩
    | some w =>
      cases vrange with
      | none => exact ⟨_, .answer (st := .nullRange) 0 (by simp) (by simp), fun _ _ => rfl⟩
      | some v =>
        cases hv : velocity params (drawnNaN s.draws) chan w v with
        | ok r =>
          exact ⟨_, .value r (by simp), fun s' hs => by simp only [exec, execIvel, hs.draws, hv]⟩
        | error f =>
          exact ⟨_, .fault f (by simp), fun s' hs => by simp only [exec, execIvel, hs.draws, hv]⟩
  | ipwm chan crange prange =>
    cases crange with
    | none => exact ⟨_, .answer (st := .nullRange) 0 (by simp) (by simp), fun _ _ => rfl⟩
    | some w =>
      cases prange with
      | none => exact ⟨_, .answer (st := .nullRange) 0 (by simp) (by simp), fun _ _ => rfl⟩
      | some r =>
        cases hv : pwm params (drawnNaN s.draws) chan w r with
        | ok v =>
          exact ⟨_, .value v (by simp), fun s' hs => by simp only [exec, execIpwm, hs.draws, hv]⟩
        | error f =>
          exact ⟨_, .fault f (by simp), fun s' hs => by simp only [exec, execIpwm, hs.draws, hv]⟩
  | drive chan crange motor =>
    cases crange with
    | none => exact ⟨_, .answer (st := .nullArgument) 0 (by simp) (by simp), fun _ _ => rfl⟩
    | some w =>
      cases motor with
      | absent => exact ⟨_, .answer (st := .nullArgument) 0 (by simp) (by simp), fun _ _ => rfl⟩
      | present =>
        refine ⟨_, .drive _ _ ?_, fun s' hs => by rw [exec_drive_present, hs.pins]⟩
        intro f
        split <;> simp
  | stepint rpm => exact ⟨_, .answer (st := .ok) _ (by simp) (by simp), fun _ _ => rfl⟩

/-- The next state of a command is its effect on the state before. -/
theorem exec_next {i : Instr} {s t : State} (h : exec i s = .next t) :
    ∃ e, Effect i e ∧ t = e s ∧ ∀ s', SameInputs i s s' → exec i s' = .next (e s') := by
  obtain ⟨e, he, hex⟩ := exec_effect h
  rw [hex s (.refl i s)] at h
  cases h
  exact ⟨e, he, rfl, hex⟩

/-! ### What an effect leaves, and what it does not read -/

theorem Effect.sameHost {i : Instr} {e : State → State} (he : Effect i e) (s : State) :
    SameHost s (e s) := by
  cases he <;> simp [SameHost, drivePins_eq]

theorem Effect.sameBank {i : Instr} {e : State → State} (he : Effect i e)
    (hi : i ≠ .decode .present) (s : State) : SameBank s (e s) := by
  cases he with
  | answer | value | fault => exact ⟨rfl, rfl⟩
  | shortBuffer | bank => exact absurd rfl hi
  | drive => simp [SameBank, drivePins_eq]

theorem Effect.samePins {i : Instr} {e : State → State} (he : Effect i e)
    (hi : ∀ chan w, i ≠ .drive chan (some w) .present) (s : State) : SamePins s (e s) := by
  cases he with
  | answer | value | fault | shortBuffer | bank => exact ⟨rfl, rfl, rfl, rfl⟩
  | drive => exact absurd rfl (hi _ _)

theorem Effect.pinev_append {i : Instr} {e : State → State} (he : Effect i e) (s : State) :
    ∃ events, (e s).pinev = s.pinev ++ events := by
  cases he with
  | answer | value | fault | shortBuffer | bank => exact ⟨[], (List.append_nil _).symm⟩
  | drive fwd => exact ⟨[⟨.dir, fwd⟩, ⟨.step, fwd⟩], by simp [drivePins_eq]⟩

/-- No effect reads FLT: with another FLT before, only FLT differs after (R25). -/
theorem Effect.withFlt {i : Instr} {e : State → State} (he : Effect i e) (s : State)
    (before : BitVec 5) : ∃ later, e { s with flt := before } = { e s with flt := later } := by
  cases he with
  | answer | value | bank => exact ⟨before, rfl⟩
  | fault f => exact ⟨setFaultBit before f, rfl⟩
  | shortBuffer => exact ⟨setFaultBit before .shortBuffer, rfl⟩
  | drive => exact ⟨before, by simp only [drivePins_eq]; rfl⟩

/-- The effect of a command that is no DECODE of a buffer carries any bank through (R22). -/
theorem Effect.withBank {i : Instr} {e : State → State} (he : Effect i e)
    (hi : i ≠ .decode .present) (s : State) (bank : Bank) (valid : Bool) :
    e { s with ch := bank, chv := valid } = { e s with ch := bank, chv := valid } := by
  cases he with
  | answer | value | fault => rfl
  | shortBuffer | bank => exact absurd rfl hi
  | drive => simp only [drivePins_eq]; rfl

/-- DECODE of a buffer overwrites the whole bank and CHV (R105). -/
theorem Effect.decode_withBank {e : State → State} (he : Effect (.decode .present) e) (s : State)
    (bank : Bank) (valid : Bool) : e { s with ch := bank, chv := valid } = e s := by
  cases he with
  | answer _ hi | value _ hi | fault _ hi => exact absurd rfl hi
  | shortBuffer | bank => rfl

/-! ### FLT and the answer -/

/-- The command was answered, and FLT has gained the bit of the fault it was answered with, if it was
one, and no other (R25). -/
def RecordsAnswer (s t : State) : Prop :=
  ∃ r, t.resp = some r ∧
    ∀ j, t.flt.getLsbD j = (s.flt.getLsbD j || decide (r.status.code.toNat = 8 + j))

theorem Status.code_lt_of_not_fault {st : Status} (h : ∀ f, st ≠ .fault f) : st.code.toNat < 8 := by
  cases st with
  | fault f => exact absurd rfl (h f)
  | ok | nullBuffer | nullRange | nullArgument | pinError => decide

theorem Status.fault_code_toNat (f : SpecFault) : (Status.fault f).code.toNat = 8 + f.bit := by
  cases f <;> rfl

theorem RecordsAnswer.of_respond {s t : State} {st : Status} {r : BitVec 32}
    (h : ∀ f, st ≠ .fault f) (hflt : t.flt = s.flt) : RecordsAnswer s (t.respond st r) := by
  refine ⟨_, rfl, fun j => ?_⟩
  have hcode := Status.code_lt_of_not_fault h
  simp [hflt, show st.code.toNat ≠ 8 + j by omega]

theorem RecordsAnswer.of_raise {s t : State} (f : SpecFault) (hflt : t.flt = s.flt) :
    RecordsAnswer s (t.raise f) := by
  refine ⟨_, rfl, fun j => ?_⟩
  simp [setFaultBit_getLsbD, Status.fault_code_toNat, hflt, eq_comm]

theorem Effect.recordsAnswer {i : Instr} {e : State → State} (he : Effect i e) (s : State) :
    RecordsAnswer s (e s) := by
  cases he with
  | answer _ _ hst => exact .of_respond hst rfl
  | value => exact .of_respond (by simp) rfl
  | fault f => exact .of_raise f rfl
  | shortBuffer => exact .of_raise _ rfl
  | bank => exact .of_respond (by simp) rfl
  | drive _ _ hst => exact .of_respond hst (by rw [drivePins_eq])

/-- From the same state with any other FLT, a command answers the same but for FLT (R25). -/
theorem exec_withFlt {i : Instr} {s t : State} (h : exec i s = .next t) (before : BitVec 5) :
    ∃ later, exec i { s with flt := before } = .next { t with flt := later } := by
  obtain ⟨e, he, rfl, hex⟩ := exec_next h
  obtain ⟨later, hl⟩ := he.withFlt s before
  exact ⟨later, (hex _ (.withFlt i s before)).trans (congrArg _ hl)⟩

/-! ### One step -/

/-- The next command is as long as its header says (R61). -/
theorem State.nextCommand_length {s : State} {b : Byte} {moves : List HostMove} {cmd : List Byte}
    (hs : s.host = .cmdByte b :: moves) (h : s.nextCommand = some cmd) :
    cmd.length = tableLength b := by
  rw [← commandLength_eq]
  unfold State.nextCommand at h
  rw [hs, leadingBytes, splitCommand] at h
  split_ifs at h with hlen
  cases h
  exact List.length_take_of_le (not_lt.mp hlen)

/-- A step at a command byte: the state past the command, and then the effect of a command, or
IllegalCmd. -/
theorem step_command {s t : State} {b : Byte} {moves : List HostMove}
    (hs : s.host = .cmdByte b :: moves) (h : step s = .next t) :
    (∃ i e, Effect i e ∧ t = e (s.advance (tableLength b))) ∨
      t = (s.advance (tableLength b)).raise .illegalCmd := by
  rcases step_next h with ⟨_, _, hs', -⟩ | ⟨_, _, hs', -⟩ | ⟨_, hs', -⟩ | ⟨_, _, cmd, -, hcmd, hrun⟩
  · simp [hs] at hs'
  · simp [hs] at hs'
  · simp [hs] at hs'
  · rw [State.nextCommand_length hs hcmd] at hrun
    obtain ⟨i, -, hi⟩ | ⟨_, -, ht⟩ := hrun
    · obtain ⟨e, he, ht, -⟩ := exec_next hi
      exact .inl ⟨i, e, he, ht⟩
    · exact .inr ht

/-- A step at a move that is no command byte: a load of FB and FLEN, PINS, or RESET (R78). -/
theorem step_hostMove {s t : State} (h : step s = .next t)
    (hcmd : ∀ b moves, s.host ≠ .cmdByte b :: moves) :
    (∃ fb flen, t = { s.dropMove with fb := fb, flen := flen }) ∨
      (∃ answers, t = s.dropMove.setPins answers) ∨
      ∃ moves, s.host = .reset :: moves ∧ t = s.dropMove.resetBlock := by
  rcases step_next h with ⟨_, _, -, hl⟩ | ⟨answers, _, -, ht⟩ | hreset | ⟨b, moves, _, hs, -⟩
  · obtain ⟨_, ht⟩ := State.loadFrame_next hl
    exact .inl ⟨_, _, ht⟩
  · exact .inr (.inl ⟨answers, ht⟩)
  · exact .inr (.inr hreset)
  · exact absurd hs (hcmd b moves)

theorem step_loadFrame {s : State} {bytes : List Byte} {moves : List HostMove}
    (hs : s.host = .loadFrame bytes :: moves) : step s = s.dropMove.loadFrame bytes := by
  simp only [step, hs]

theorem step_pins {s : State} {answers : PinAnswers} {moves : List HostMove}
    (hs : s.host = .pins answers :: moves) : step s = .next (s.dropMove.setPins answers) := by
  simp only [step, hs]

theorem step_reset {s : State} {moves : List HostMove} (hs : s.host = .reset :: moves) :
    step s = .next s.dropMove.resetBlock := by
  simp only [step, hs]

theorem step_cmdByte {s : State} {b : Byte} {moves : List HostMove} {cmd : List Byte}
    (hs : s.host = .cmdByte b :: moves) (hcmd : s.nextCommand = some cmd) :
    step s = runCommand cmd (s.advance cmd.length) := by
  simp only [step, hs, hcmd]

theorem runCommand_ok {cmd : List Byte} {i : Instr} (h : decode cmd = .ok i) (s : State) :
    runCommand cmd s = exec i s := by
  simp only [runCommand, h]

theorem runCommand_error {cmd : List Byte} {e : Reject} (h : decode cmd = .error e) (s : State) :
    runCommand cmd s = .next (s.raise .illegalCmd) := by
  simp only [runCommand, h, takeIllegal]

/-- From the same state with any other FLT, a step answers the same but for FLT (R25). -/
theorem step_withFlt {s t : State} (h : step s = .next t) (before : BitVec 5) :
    ∃ later, step { s with flt := before } = .next { t with flt := later } := by
  rcases step_next h with ⟨bytes, _, hs, hl⟩ | ⟨_, _, hs, rfl⟩ | ⟨_, hs, rfl⟩ |
    ⟨_, _, cmd, hs, hcmd, hrun⟩
  · obtain ⟨hlen, rfl⟩ := State.loadFrame_next hl
    have hstep : step { s with flt := before } =
        State.loadFrame { s.dropMove with flt := before } bytes := step_loadFrame hs
    exact ⟨before, hstep.trans (State.loadFrame_eq hlen)⟩
  · exact ⟨before, step_pins hs⟩
  · exact ⟨0, step_reset hs⟩
  · have hstep : step { s with flt := before } =
        runCommand cmd { s.advance cmd.length with flt := before } := step_cmdByte hs hcmd
    rw [hstep]
    obtain ⟨i, hi, hx⟩ | ⟨_, he, rfl⟩ := hrun
    · rw [runCommand_ok hi]
      exact exec_withFlt hx before
    · exact ⟨setFaultBit before .illegalCmd, runCommand_error he _⟩

/-! ### The statements -/

/-- Settles O12: no effect of a command touches the host's moves or cp, so what is past the command
stays. -/
theorem commandAdvancesStream : Obligations.CommandAdvancesStream := by
  refine fun s t h => ⟨fun b moves hs => ?_, fun hcmd => ?_⟩
  · obtain ⟨i, e, he, rfl⟩ | rfl := step_command hs h
    · exact he.sameHost _
    · exact ⟨rfl, rfl⟩
  · obtain ⟨_, _, rfl⟩ | ⟨_, rfl⟩ | ⟨_, -, rfl⟩ := step_hostMove h hcmd
    all_goals exact ⟨rfl, rfl⟩

/-- Settles O44: each effect records its own answer in FLT, and none reads FLT. -/
theorem fltGainsTheAnsweredFault : Obligations.FltGainsTheAnsweredFault := by
  refine ⟨fun s t h => ⟨fun b moves hs => ?_, fun hcmd hreset => ?_, fun moves hs => ?_⟩,
    fun i s t before h => exec_withFlt h before, fun s t before h => step_withFlt h before⟩
  · obtain ⟨i, e, he, rfl⟩ | rfl := step_command hs h
    · exact he.recordsAnswer (s.advance _)
    · exact RecordsAnswer.of_raise .illegalCmd rfl
  · obtain ⟨_, _, rfl⟩ | ⟨_, rfl⟩ | ⟨moves, hs, -⟩ := step_hostMove h hcmd
    · rfl
    · rfl
    · exact absurd hs (hreset moves)
  · rw [step_reset hs] at h
    cases h
    rfl

/-- Settles O45: DECODE of a buffer overwrites the bank, and every other effect carries it through. -/
theorem bankUsedOnlyByDecodeAndRdch : Obligations.BankUsedOnlyByDecodeAndRdch := by
  intro i s t h
  obtain ⟨e, he, rfl, hex⟩ := exec_next h
  refine ⟨fun hi => he.sameBank hi s, fun hi hrdch bank valid => ?_, ?_⟩
  · exact (hex _ (.withBank hrdch s bank valid)).trans
      (congrArg _ (he.withBank hi s bank valid))
  · rintro rfl bank valid
    exact (hex _ (.withBank (by simp) s bank valid)).trans
      (congrArg _ (he.decode_withBank s bank valid))

/-- Settles O46: only the effect of DRIVE writes the pins, and it appends to PINEV. -/
theorem pinsWrittenOnlyByDrive : Obligations.PinsWrittenOnlyByDrive := by
  constructor
  · intro i s t h hi
    obtain ⟨e, he, rfl, -⟩ := exec_next h
    exact he.samePins hi s
  · intro s t h hreset
    by_cases hcmd : ∃ b moves, s.host = .cmdByte b :: moves
    · obtain ⟨b, moves, hs⟩ := hcmd
      obtain ⟨i, e, he, rfl⟩ | rfl := step_command hs h
      · exact he.pinev_append _
      · exact ⟨[], (List.append_nil _).symm⟩
    · push Not at hcmd
      obtain ⟨_, _, rfl⟩ | ⟨_, rfl⟩ | ⟨moves, hs, -⟩ := step_hostMove h hcmd
      · exact ⟨[], (List.append_nil _).symm⟩
      · exact ⟨[], (List.append_nil _).symm⟩
      · exact absurd hs (hreset moves)

end Sys2Proof.Machine
end

section
/-! Memory and the invariant (spec/20_memory.md R40 to R44): no command writes the frame buffer,
every step keeps the invariant and none faults from it, and the extraction table cuts the channels off the
one little-endian stream of the payload. -/

namespace Sys2Proof.Machine

/-! ### The frame buffer -/

/-- No effect writes FB or FLEN (R43). -/
theorem Effect.fb_flen {i : Instr} {e : State → State} (he : Effect i e) (s : State) :
    (e s).fb = s.fb ∧ (e s).flen = s.flen := by
  cases he with
  | answer | value | fault | shortBuffer | bank => exact ⟨rfl, rfl⟩
  | drive => simp [drivePins_eq]

theorem exec_fb_flen {i : Instr} {s t : State} (h : exec i s = .next t) :
    t.fb = s.fb ∧ t.flen = s.flen := by
  obtain ⟨e, he, rfl, -⟩ := exec_next h
  exact he.fb_flen s

/-- Being loaded is a fact about FB and FLEN alone (R41). -/
theorem FrameLoaded.of_fb_flen {s t : State} (h : FrameLoaded s)
    (heq : t.fb = s.fb ∧ t.flen = s.flen) : FrameLoaded t := by
  obtain ⟨hfb, hflen⟩ := heq
  rwa [FrameLoaded, hfb, hflen]

/-- What LOADFRAME leaves is loaded (R41, R78). -/
theorem FrameLoaded.of_loadFrame {s t : State} {bytes : List Byte}
    (h : s.loadFrame bytes = .next t) : FrameLoaded t := by
  obtain ⟨hlen, rfl⟩ := State.loadFrame_next h
  refine ⟨Memory.wf_ofBytes bytes (by omega), ?_⟩
  rw [List.range_eq_range']
  exact Memory.ofBytes_map_fst bytes 0

/-- A loaded buffer of FLEN of 23 or more holds a value at every payload index (R41, R42). -/
theorem FrameLoaded.payloadIs {s : State} (h : FrameLoaded s) (hlen : 23 ≤ s.flen.val) :
    PayloadIs s fun i => (Memory.read s.fb i).getD 0 := by
  intro i _ hi
  have hmem : i ∈ s.fb.map (·.1) := by
    rw [h.2, List.mem_range]
    omega
  obtain ⟨b, hb⟩ := Memory.read_isSome s.fb i hmem
  simp [hb]

/-! ### The parts of the invariant that a command writes -/

/-- The two pin writes of DRIVE keep the trace of the pins: they are one more pair, of the level
both registers take (R157, R158). -/
theorem PinsTraced.drivePins {s : State} (h : PinsTraced s) (fwd : Bool) :
    PinsTraced (drivePins fwd s).2 := by
  obtain ⟨hpairs, -, -⟩ := h
  rw [drivePins_eq]
  exact ⟨pinPairs_append _ fwd hpairs, by simp [lastLevel], by simp [lastLevel]⟩

theorem Effect.pinsTraced {i : Instr} {e : State → State} (he : Effect i e) {s : State}
    (h : PinsTraced s) : PinsTraced (e s) := by
  cases he with
  | answer | value | fault | shortBuffer | bank => exact h
  | drive fwd => exact h.drivePins fwd

/-- An answer that is no fault is recorded when a null error's result is 0 (R64). -/
theorem AnswerRecorded.of_respond (s : State) {st : Status} {r : BitVec 32}
    (hfault : ∀ f, st ≠ .fault f)
    (hnull : st = .nullBuffer ∨ st = .nullRange ∨ st = .nullArgument → r = 0) :
    AnswerRecorded (s.respond st r) := by
  rintro _ ⟨⟩
  exact ⟨fun f hf => absurd hf (hfault f), hnull⟩

/-- A raised fault is in FLT (R25, R183). -/
theorem AnswerRecorded.of_raise (s : State) (f : SpecFault) : AnswerRecorded (s.raise f) := by
  rintro _ ⟨⟩
  refine ⟨?_, by simp⟩
  rintro _ ⟨⟩
  simp [setFaultBit_getLsbD]

/-- Every command's answer is recorded, whatever was answered before it. -/
theorem exec_answerRecorded {i : Instr} {s t : State} (h : exec i s = .next t) :
    AnswerRecorded t := by
  rcases exec_cases i s with ⟨st, r, -, hfault, hnull, hx⟩ | ⟨f, -, hx⟩ | ⟨-, -, hx⟩ |
    ⟨-, -, bank, hx⟩ | ⟨-, -, f, -, hx⟩ | ⟨_, _, _, st, r, -, hst, hx⟩
  · have hzero : st = .nullBuffer ∨ st = .nullRange ∨ st = .nullArgument → r = 0 := fun hn =>
      (hnull (by rintro rfl; simp at hn)).2
    obtain hx | hx := hx
    all_goals
      cases hx.symm.trans h
      exact .of_respond _ hfault hzero
  · cases hx.symm.trans h
    exact .of_raise _ f
  · cases hx.symm.trans h
    exact .of_raise _ .shortBuffer
  · cases hx.symm.trans h
    exact .of_respond _ (by simp) (by simp)
  · cases hx.symm.trans h
  · cases hx.symm.trans h
    obtain rfl | rfl := hst
    all_goals exact .of_respond _ (by simp) (by simp)

/-! ### The invariant -/

theorem Inv.exec {i : Instr} {s t : State} (hinv : Inv s) (h : exec i s = .next t) : Inv t := by
  obtain ⟨hframe, hpins, -⟩ := hinv
  obtain ⟨e, he, rfl, -⟩ := exec_next h
  exact ⟨hframe.of_fb_flen (he.fb_flen s), he.pinsTraced hpins, exec_answerRecorded h⟩

theorem Inv.raise {s : State} (hinv : Inv s) (f : SpecFault) : Inv (s.raise f) := by
  obtain ⟨hframe, hpins, -⟩ := hinv
  exact ⟨hframe, hpins, .of_raise s f⟩

theorem Inv.loadFrame {s t : State} {bytes : List Byte} (hinv : Inv s)
    (h : s.loadFrame bytes = .next t) : Inv t := by
  obtain ⟨-, hpins, hanswer⟩ := hinv
  have hframe : FrameLoaded t := .of_loadFrame h
  obtain ⟨_, rfl⟩ := State.loadFrame_next h
  exact ⟨hframe, hpins, hanswer⟩

/-- The values of reset meet the invariant where FB holds no value and nothing was answered (R211,
R212; log 3, 7). -/
theorem Inv.of_atReset {s : State} (h : AtReset s) (hfb : s.fb = []) (hresp : s.resp = none) :
    Inv s := by
  obtain ⟨-, hdir, hstep, -, hpinev, hflen⟩ := h
  refine ⟨?_, ?_, fun r hr => ?_⟩
  · rw [FrameLoaded, hfb, hflen]
    exact ⟨Memory.wf_reset, rfl⟩
  · simp [PinsTraced, hpinev, hdir, hstep, pinPairs, lastLevel]
  · simp [hresp] at hr

/-! The invariant does not speak of the host's moves, of cp or of the pin environment. -/

theorem Inv.dropMove {s : State} (hinv : Inv s) : Inv s.dropMove := hinv

theorem Inv.advance {s : State} (hinv : Inv s) (n : Nat) : Inv (s.advance n) := hinv

theorem Inv.setPins {s : State} (hinv : Inv s) (answers : PinAnswers) : Inv (s.setPins answers) :=
  hinv

theorem Inv.step {s t : State} (hinv : Inv s) (h : step s = .next t) : Inv t := by
  rcases step_next h with ⟨_, _, -, hload⟩ | ⟨_, _, -, rfl⟩ | ⟨_, -, rfl⟩ |
    ⟨_, _, _, -, -, ⟨_, -, hexec⟩ | ⟨_, -, rfl⟩⟩
  · exact hinv.dropMove.loadFrame hload
  · exact hinv.dropMove.setPins _
  · exact .of_atReset ⟨rfl, rfl, rfl, rfl, rfl, rfl⟩ rfl rfl
  · exact (hinv.advance _).exec hexec
  · exact (hinv.advance _).raise _

/-! ### No fault of the model -/

/-- The one fault of a command is DECODE's at a byte that holds no value (R42). -/
theorem exec_fault {i : Instr} {s : State} {f : Fault} (h : exec i s = .fault f) :
    23 ≤ s.flen.val ∧ s.memReads 1 22 = .error f := by
  rcases exec_cases i s with ⟨_, _, -, -, -, hx | hx⟩ | ⟨_, -, hx⟩ | ⟨-, -, hx⟩ | ⟨-, -, _, hx⟩ |
    ⟨-, hlen, f', hread, hx⟩ | ⟨_, _, _, _, _, -, -, hx⟩
  case inr.inr.inr.inr.inl =>
    cases hx.symm.trans h
    exact ⟨hlen, hread⟩
  all_goals cases hx.symm.trans h

theorem FrameLoaded.exec_ne_fault {s : State} (h : FrameLoaded s) (i : Instr) (f : Fault) :
    exec i s ≠ .fault f := by
  intro hx
  obtain ⟨hlen, hread⟩ := exec_fault hx
  cases (s.memReads_payload _ (h.payloadIs hlen)).symm.trans hread

/-- A step faults only where its command does. -/
theorem step_fault {s : State} {f : Fault} (h : step s = .fault f) :
    ∃ i n, exec i (s.advance n) = .fault f := by
  unfold step State.loadFrame runCommand at h
  split at h
  · cases h
  · split at h <;> cases h
  · cases h
  · cases h
  · split at h
    · cases h
    · split at h
      · exact ⟨_, _, h⟩
      · cases h

/-! ### The stream of the payload -/

/-- The number that little-endian bytes make is below 256 to the power of their number. -/
theorem byteStream_lt {c : Nat → Nat} (hc : ∀ i, c i < 256) (n : Nat) :
    ∑ i ∈ Finset.Icc 1 n, c i * 2 ^ (8 * (i - 1)) < 2 ^ (8 * n) := by
  induction n with
  | zero => simp
  | succ n ih =>
    rw [Finset.sum_Icc_succ_top (by omega), Nat.add_sub_cancel, Nat.mul_succ, Nat.pow_add]
    have := Nat.mul_le_mul_right (2 ^ (8 * n)) (Nat.le_of_lt_succ (hc (n + 1)))
    omega

/-- Bit m of the stream is bit m % 8 of its byte m / 8, counted from 1 (R44). -/
theorem byteStream_testBit {c : Nat → Nat} (hc : ∀ i, c i < 256) {n m : Nat} (hm : m < 8 * n) :
    (∑ i ∈ Finset.Icc 1 n, c i * 2 ^ (8 * (i - 1))).testBit m =
      (c (1 + m / 8)).testBit (m % 8) := by
  induction n with
  | zero => omega
  | succ n ih =>
    rw [Finset.sum_Icc_succ_top (by omega), Nat.add_sub_cancel, Nat.add_comm, Nat.mul_comm (c _),
      Nat.testBit_two_pow_mul_add _ (byteStream_lt hc n)]
    split
    · next hlow => exact ih hlow
    · next hhigh =>
      have hbyte : 1 + m / 8 = n + 1 := by omega
      have hbit : m % 8 = m - 8 * n := by omega
      rw [hbyte, hbit]

/-! ### The extraction table -/

/-- A row's mask keeps the low 11 bits (R101). -/
theorem chan11_getLsbD (v : Nat) {j : Nat} (hj : j < 11) : (chan11 v).getLsbD j = v.testBit j := by
  have hmask : params.chMask = 2 ^ 11 - 1 := rfl
  rw [chan11, hmask, Nat.and_two_pow_sub_one_eq_mod, BitVec.getLsbD_ofNat, Nat.testBit_mod_two_pow]
  simp [hj]

/-- What a row shifts past its 11 bits does not count. -/
theorem chan11_or_shiftLeft (v z : Nat) {n : Nat} (hn : 11 ≤ n) :
    chan11 (v ||| z <<< n) = chan11 v := by
  apply BitVec.eq_of_getLsbD_eq
  intro j hj
  have hlow : ¬ n ≤ j := by omega
  simp [chan11_getLsbD _ hj, hlow]

/-- The three bytes from a channel's first bit on, that bit shifted down to place 0. -/
def threeBytes (c : Nat → Nat) (i r : Nat) : Nat :=
  c i >>> r ||| c (i + 1) <<< (8 - r) ||| c (i + 2) <<< (16 - r)

/-- Every row of the table is the three bytes from bit 11k of the payload on: a row that names two
has no bit in the third (R101). -/
theorem channelTable_row (c : Nat → Nat) (k : Fin 16) :
    (channelTable c)[k] = chan11 (threeBytes c (1 + 11 * k.val / 8) (11 * k.val % 8)) := by
  fin_cases k <;> simp [channelTable, threeBytes, chan11_or_shiftLeft]

theorem threeBytes_testBit {c : Nat → Nat} (hc : ∀ i, c i < 256) {i r j : Nat} (hr : r < 8)
    (hj : j < 11) :
    (threeBytes c i r).testBit j = (c (i + (r + j) / 8)).testBit ((r + j) % 8) := by
  have hzero (i n : Nat) (hn : 8 ≤ n) : (c i).testBit n = false :=
    Nat.testBit_lt_two_pow ((hc i).trans_le (Nat.pow_le_pow_right (n := 2) (by omega) hn))
  simp only [threeBytes, Nat.testBit_or, Nat.testBit_shiftRight, Nat.testBit_shiftLeft]
  obtain h | h | h : (r + j) / 8 = 0 ∨ (r + j) / 8 = 1 ∨ (r + j) / 8 = 2 := by omega
  · have hlow : ¬ 8 - r ≤ j ∧ ¬ 16 - r ≤ j := by omega
    simp [h, hlow, Nat.mod_eq_of_lt (show r + j < 8 by omega)]
  · have hmid : 8 - r ≤ j ∧ ¬ 16 - r ≤ j ∧ (r + j) % 8 = j - (8 - r) := by omega
    simp [h, hmid, hzero i (r + j) (by omega)]
  · have hhigh : 8 - r ≤ j ∧ 16 - r ≤ j ∧ (r + j) % 8 = j - (16 - r) := by omega
    simp [h, hhigh, hzero i (r + j) (by omega), hzero (i + 1) (j - (8 - r)) (by omega)]

/-- Bit j of channel k is bit 11k + j of the payload (R102). -/
theorem channelTable_getLsbD {c : Nat → Nat} (hc : ∀ i, c i < 256) (k : Fin 16) {j : Nat}
    (hj : j < 11) : (channelTable c)[k].getLsbD j =
      (c (1 + (11 * k.val + j) / 8)).testBit ((11 * k.val + j) % 8) := by
  rw [channelTable_row, chan11_getLsbD _ hj, threeBytes_testBit hc (by omega) hj]
  have hbyte : 1 + 11 * k.val / 8 + (11 * k.val % 8 + j) / 8 = 1 + (11 * k.val + j) / 8 := by omega
  rw [hbyte, Nat.mod_add_mod]

/-- Channel k is the field [11k+10 : 11k] of the stream of the bytes it is cut from (R44). -/
theorem channelTable_toNat {c : Nat → Nat} (hc : ∀ i, c i < 256) (k : Fin 16) :
    (channelTable c)[k].toNat =
      (∑ i ∈ Finset.Icc 1 22, c i * 2 ^ (8 * (i - 1))) / 2 ^ (11 * k.val) % 2 ^ 11 := by
  apply Nat.eq_of_testBit_eq
  intro j
  rw [Nat.testBit_mod_two_pow, Nat.testBit_div_two_pow, BitVec.testBit_toNat]
  by_cases hj : j < 11
  · rw [channelTable_getLsbD hc k hj, byteStream_testBit hc (by omega)]
    simp [hj, Nat.add_comm]
  · simp [hj, BitVec.getLsbD_of_ge _ _ (not_lt.mp hj)]

/-! ### The statements -/

/-- Settles O40: reset leaves no frame, no pin write and no answer to speak of. -/
theorem resetMeetsInvariant : Obligations.ResetMeetsInvariant :=
  .of_atReset ⟨rfl, rfl, rfl, rfl, rfl, rfl⟩ rfl rfl

/-- Settles O41, by the cases of a step: a command records its own answer and adds a pair of pin
writes or none, and a host move writes FB as a whole or resets the block. -/
theorem stepKeepsTheInvariant : Obligations.StepKeepsTheInvariant :=
  fun _ _ hinv h => hinv.step h

/-- Settles O42: only DECODE reads, after it has found FLEN of 23 or more. -/
theorem noStepStopsWithFault : Obligations.NoStepStopsWithFault := by
  rintro s f ⟨hframe, -, -⟩ h
  obtain ⟨i, n, hx⟩ := step_fault h
  exact FrameLoaded.exec_ne_fault (s := s.advance n) hframe i f hx

/-- Settles O47: the effect of a command leaves both. -/
theorem noCommandWritesFrame : Obligations.NoCommandWritesFrame := by
  intro i s t h
  obtain ⟨hfb, hflen⟩ := exec_fb_flen h
  exact ⟨hfb, fun a => by rw [hfb], hflen⟩

/-- Settles O15: the bits of a channel are those of the stream from 11k on. -/
theorem decodeIsOneBitstream : Obligations.DecodeIsOneBitstream := by
  intro s b hb hlen
  refine ⟨_, execDecode_present b hlen hb, fun k => ?_⟩
  have hc (i : Nat) : payloadByte ((List.range 22).map fun j => b (j + 1)) i < 256 := BitVec.isLt _
  have hsum : ∑ i ∈ Finset.Icc 1 22,
      payloadByte ((List.range 22).map fun j => b (j + 1)) i * 2 ^ (8 * (i - 1)) =
      ∑ i ∈ Finset.Icc 1 22, (b i).toNat * 2 ^ (8 * (i - 1)) :=
    Finset.sum_congr rfl fun i hi => by
      obtain ⟨h1, h2⟩ := Finset.mem_Icc.mp hi
      rw [payloadByte_range b i h1 h2]
  rw [← hsum]
  exact channelTable_toNat hc k

end Sys2Proof.Machine
end

section
/-! The encoding (spec/30_encoding.md): what the decoder reads from a command of the right length, field
by field; which headers and operands are legal; and the statements about the byte form that follow
from these. -/

namespace Sys2Proof

/-! ### The fields of the operand bytes -/

/-- The 16-bit field at an offset of the operand bytes (R60, R63). -/
def u16From (l : List Byte) (k : Nat) : U16 := u16At (l.getD k 0) (l.getD (k + 1) 0)

/-- The 32-bit field at an offset of the operand bytes (R60, R63). -/
def u32From (l : List Byte) (k : Nat) : BitVec 32 :=
  u32At (l.getD k 0) (l.getD (k + 1) 0) (l.getD (k + 2) 0) (l.getD (k + 3) 0)

/-- The window at its offset, which is the same in each command that has one (R63). -/
def windowFrom (l : List Byte) : ChannelWindow := ⟨u16From l 2, u16From l 4⟩

/-- The velocity range of IVEL at its offset (R63). -/
def velocityFrom (l : List Byte) : VelocityRange := ⟨u32From l 6, u32From l 10⟩

/-- The PWM range of IPWM at its offset (R63). -/
def pwmFrom (l : List Byte) : PwmRange := ⟨u32From l 6, u32From l 10, u32From l 14⟩

theorem decodeOperands_ivel (p0 p1 : Bool) {l : List Byte} (h : l.length = 14) :
    decodeOperands .ivel p0 p1 l = .ok (.ivel (u16From l 0) (optionOf p0 (windowFrom l))
      (optionOf p1 (velocityFrom l))) :=
  match l, h with
  | [_, _, _, _, _, _, _, _, _, _, _, _, _, _], _ => rfl

theorem decodeOperands_ipwm (p0 p1 : Bool) {l : List Byte} (h : l.length = 18) :
    decodeOperands .ipwm p0 p1 l = .ok (.ipwm (u16From l 0) (optionOf p0 (windowFrom l))
      (optionOf p1 (pwmFrom l))) :=
  match l, h with
  | [_, _, _, _, _, _, _, _, _, _, _, _, _, _, _, _, _, _], _ => rfl

theorem decodeOperands_drive (p0 p1 : Bool) {l : List Byte} (h : l.length = 6) :
    decodeOperands .drive p0 p1 l = .ok (.drive (u16From l 0) (optionOf p0 (windowFrom l))
      (presenceOf p1)) :=
  match l, h with
  | [_, _, _, _, _, _], _ => rfl

theorem decodeOperands_stepint (p0 p1 : Bool) {l : List Byte} (h : l.length = 2) :
    decodeOperands .stepint p0 p1 l = .ok (.stepint (u16From l 0)) :=
  match l, h with
  | [_, _], _ => rfl

/-- R65 check 4: the index byte of RDCH has nothing above its low half. -/
theorem decodeOperands_rdch (p0 p1 : Bool) (b : Byte) : decodeOperands .rdch p0 p1 [b] =
    if b.toNat / 16 ≠ 0 then .error .reservedIndexBits else .ok (.rdch (b.extractLsb' 0 4)) := by
  have hhigh : b.extractLsb' 4 4 = 0 ↔ b.toNat / 16 = 0 := by
    revert b
    decide
  simp only [decodeOperands, ne_eq, hhigh]

/-! What an append leaves of the fields: the channel value and the window stand in the first six bytes, an
output range after them (R63). -/

theorem u16From_append_left {pre : List Byte} {k : Nat} (hk : k + 1 < pre.length) (l : List Byte) :
    u16From (pre ++ l) k = u16From pre k := by
  rw [u16From, List.getD_append _ _ _ _ hk, List.getD_append _ _ _ _ (by omega), u16From]

theorem windowFrom_append_left {pre : List Byte} (hpre : pre.length = 6) (l : List Byte) :
    windowFrom (pre ++ l) = windowFrom pre := by
  rw [windowFrom, u16From_append_left (by omega), u16From_append_left (by omega), windowFrom]

theorem u32From_append_right (pre l : List Byte) (k : Nat) :
    u32From (pre ++ l) (pre.length + k) = u32From l k := by
  have hskip (j : Nat) : (pre ++ l).getD (pre.length + j) 0 = l.getD j 0 := by
    rw [List.getD_append_right _ _ _ _ (Nat.le_add_right _ _), Nat.add_sub_cancel_left]
  simp only [u32From, Nat.add_assoc, hskip]

theorem velocityFrom_append_right {pre : List Byte} (hpre : pre.length = 6) (l : List Byte) :
    velocityFrom (pre ++ l) = ⟨u32From l 0, u32From l 4⟩ := by
  rw [← u32From_append_right pre l 0, ← u32From_append_right pre l 4, hpre, velocityFrom]

theorem pwmFrom_append_right {pre : List Byte} (hpre : pre.length = 6) (l : List Byte) :
    pwmFrom (pre ++ l) = ⟨u32From l 0, u32From l 4, u32From l 8⟩ := by
  rw [← u32From_append_right pre l 0, ← u32From_append_right pre l 4,
    ← u32From_append_right pre l 8, hpre, pwmFrom]

/-! ### Legal headers and operands -/

/-- A header that passes checks 1 to 3 of the decoder (R65). -/
abbrev HeaderLegal (h : Byte) : Prop :=
  headerOp h ≠ .reserved ∧ headerRsv h = 0 ∧
    presentBitsIllegal (headerOp h) (headerP0 h) (headerP1 h) = false

/-- Operand bytes that pass check 4 of the decoder (R65). -/
def OperandsLegal (op : Op) (rest : List Byte) : Prop := op = .rdch → ∀ b ∈ rest, b.toNat / 16 = 0

/-- The decoder's checks, and then the operands (R65). -/
theorem decode_eq_ok_iff {h : Byte} {rest : List Byte} {i : Instr} : decode (h :: rest) = .ok i ↔
    rest.length + 1 = commandLength h ∧ HeaderLegal h ∧
      decodeOperands (headerOp h) (headerP0 h) (headerP1 h) rest = .ok i := by
  simp only [decode]
  split_ifs <;> simp_all [HeaderLegal]

/-- Of operands of the right length only those of RDCH can be illegal (R69). -/
theorem decodeOperands_isOk_iff {op : Op} {rest : List Byte} (hop : op ≠ .reserved)
    (hlen : rest.length + 1 = op.length) (p0 p1 : Bool) :
    (∃ i, decodeOperands op p0 p1 rest = .ok i) ↔ OperandsLegal op rest := by
  have hrest : rest.length = op.length - 1 := by omega
  unfold OperandsLegal
  cases op with
  | decode =>
    rw [List.eq_nil_of_length_eq_zero hrest]
    simp [decodeOperands]
  | rdch =>
    obtain ⟨b, rfl⟩ := List.length_eq_one_iff.mp hrest
    simp [decodeOperands_rdch, ite_eq_iff]
  | parchk =>
    obtain ⟨b, rfl⟩ := List.length_eq_one_iff.mp hrest
    simp [decodeOperands]
  | ivel => simp [decodeOperands_ivel p0 p1 hrest]
  | ipwm => simp [decodeOperands_ipwm p0 p1 hrest]
  | drive => simp [decodeOperands_drive p0 p1 hrest]
  | stepint => simp [decodeOperands_stepint p0 p1 hrest]
  | reserved => exact absurd rfl hop

/-- Which byte strings are legal commands (R65, R69). -/
theorem decode_isOk_iff {h : Byte} {rest : List Byte} : (∃ i, decode (h :: rest) = .ok i) ↔
    rest.length + 1 = commandLength h ∧ HeaderLegal h ∧ OperandsLegal (headerOp h) rest := by
  simp only [decode_eq_ok_iff, exists_and_left]
  refine and_congr_right fun hlen => and_congr_right fun hlegal => ?_
  exact decodeOperands_isOk_iff hlegal.1 hlen _ _

/-- R69's list, in the decoder's terms. -/
theorem not_illegalEncoding_iff {h : Byte} {rest : List Byte} :
    ¬ Machine.IllegalEncoding (h :: rest) ↔ HeaderLegal h ∧ OperandsLegal (headerOp h) rest := by
  have hheader : HeaderLegal h ↔ ¬ (h.toNat % 8 = 7 ∨ h.toNat / 32 ≠ 0 ∨
      (h.toNat % 8 = 0 ∧ h.toNat / 16 % 2 = 1) ∨
      ((h.toNat % 8 = 1 ∨ h.toNat % 8 = 2 ∨ h.toNat % 8 = 6) ∧
        (h.toNat / 8 % 2 = 1 ∨ h.toNat / 16 % 2 = 1))) := by
    revert h
    decide
  have hop : headerOp h = .rdch ↔ h.toNat % 8 = 1 := by
    revert h
    decide
  simp only [hheader, OperandsLegal, hop, Machine.IllegalEncoding]
  push Not
  tauto

/-! ### Encoding and decoding back -/

theorem headerOp_header (p1 p0 : Bool) (op : BitVec 3) :
    headerOp (header p1 p0 op) = Op.ofField op.toNat := by
  revert p1 p0 op
  decide

theorem headerP0_header (p1 p0 : Bool) (op : BitVec 3) : headerP0 (header p1 p0 op) = p0 := by
  revert p1 p0 op
  decide

theorem headerP1_header (p1 p0 : Bool) (op : BitVec 3) : headerP1 (header p1 p0 op) = p1 := by
  revert p1 p0 op
  decide

theorem encode_eq_cons (i : Instr) :
    ∃ h rest, encode i = h :: rest ∧ rest.length + 1 = commandLength h := by
  cases i with
  | decode buf => exact (Laws.EncodeLength.decode buf).1
  | rdch k => exact (Laws.EncodeLength.rdch k).1
  | parchk flag => exact (Laws.EncodeLength.parchk flag).1
  | ivel chan c v => exact (Laws.EncodeLength.ivel chan c v).1
  | ipwm chan c r => exact (Laws.EncodeLength.ipwm chan c r).1
  | drive chan c motor => exact (Laws.EncodeLength.drive chan c motor).1
  | stepint rpm => exact (Laws.EncodeLength.stepint rpm).1

/-- An encoded command decodes back when its header is legal and its operands are read back. -/
theorem decode_encode_of_operands {i : Instr} {p1 p0 : Bool} {op : BitVec 3} {rest : List Byte}
    (henc : encode i = header p1 p0 op :: rest) (hlegal : HeaderLegal (header p1 p0 op))
    (hrest : decodeOperands (Op.ofField op.toNat) p0 p1 rest = .ok i) :
    decode (encode i) = .ok i := by
  obtain ⟨h, l, hcons, hlen⟩ := encode_eq_cons i
  cases hcons.symm.trans henc
  rw [hcons, decode_eq_ok_iff, headerOp_header, headerP0_header, headerP1_header]
  exact ⟨hlen, hlegal, hrest⟩

/-- R62: IVEL, IPWM and DRIVE take any present bits. -/
theorem headerLegal_header {op : BitVec 3} (hop : 3 ≤ op ∧ op ≤ 5) (p1 p0 : Bool) :
    HeaderLegal (header p1 p0 op) := by
  revert p1 p0 op
  decide

theorem presenceOf_bit (p : Presence) : presenceOf p.bit = p := by cases p <;> rfl

/-- The channel value and the window of a command, as they are written, take six bytes (R63). -/
theorem chanWindow_length (chan : U16) (c : Option ChannelWindow) :
    (bytes16 chan ++ windowBytes c).length = 6 := by
  cases c <;> rfl

theorem velocityBytes_length (v : Option VelocityRange) : (velocityBytes v).length = 8 := by
  cases v <;> rfl

theorem pwmBytes_length (r : Option PwmRange) : (pwmBytes r).length = 12 := by
  cases r <;> rfl

/-- The first field of the operands is read back. -/
theorem u16From_bytes16 (v : U16) (l : List Byte) : u16From (bytes16 v ++ l) 0 = v :=
  u16At_bytes v

/-- A window is read back, and an absent one is absent (R68). -/
theorem optionOf_windowFrom (chan : U16) (c : Option ChannelWindow) :
    optionOf c.isSome (windowFrom (bytes16 chan ++ windowBytes c)) = c := by
  cases c with
  | none => rfl
  | some w => simp [optionOf, windowFrom, u16From, bytes16, windowBytes, u16At_bytes]

theorem optionOf_velocityFrom {pre : List Byte} (hpre : pre.length = 6)
    (v : Option VelocityRange) : optionOf v.isSome (velocityFrom (pre ++ velocityBytes v)) = v := by
  rw [velocityFrom_append_right hpre]
  cases v with
  | none => rfl
  | some v => simp [optionOf, u32From, bytes32, velocityBytes, u32At_bytes]

theorem optionOf_pwmFrom {pre : List Byte} (hpre : pre.length = 6) (r : Option PwmRange) :
    optionOf r.isSome (pwmFrom (pre ++ pwmBytes r)) = r := by
  rw [pwmFrom_append_right hpre]
  cases r with
  | none => rfl
  | some r => simp [optionOf, u32From, bytes32, pwmBytes, u32At_bytes]

theorem decode_encode (i : Instr) : decode (encode i) = .ok i := by
  cases i with
  | decode buf => cases buf <;> rfl
  | rdch k =>
    refine decode_encode_of_operands rfl (by decide) ?_
    revert k
    decide
  | parchk flag => exact decode_encode_of_operands rfl (by decide) rfl
  | ivel chan c v =>
    have hpre := chanWindow_length chan c
    refine decode_encode_of_operands rfl (headerLegal_header (by decide) _ _)
      ((decodeOperands_ivel _ _ ?_).trans ?_)
    · rw [List.length_append, hpre, velocityBytes_length]
    · rw [u16From_append_left (by omega), u16From_bytes16, windowFrom_append_left hpre,
        optionOf_windowFrom, optionOf_velocityFrom hpre]
  | ipwm chan c r =>
    have hpre := chanWindow_length chan c
    refine decode_encode_of_operands rfl (headerLegal_header (by decide) _ _)
      ((decodeOperands_ipwm _ _ ?_).trans ?_)
    · rw [List.length_append, hpre, pwmBytes_length]
    · rw [u16From_append_left (by omega), u16From_bytes16, windowFrom_append_left hpre,
        optionOf_windowFrom, optionOf_pwmFrom hpre]
  | drive chan c motor =>
    refine decode_encode_of_operands rfl (headerLegal_header (by decide) _ _)
      ((decodeOperands_drive _ _ (chanWindow_length chan c)).trans ?_)
    rw [u16From_bytes16, optionOf_windowFrom, presenceOf_bit]
  | stepint rpm =>
    refine decode_encode_of_operands rfl (by decide) ((decodeOperands_stepint _ _ rfl).trans ?_)
    rw [← List.append_nil (bytes16 rpm), u16From_bytes16]

/-! ### The opcode map -/

/-- A mask over a byte string, taken byte by byte. -/
theorem littleEndian_cons_and (b : Byte) (bs : List Byte) (m : Nat) :
    littleEndian (b :: bs) &&& m =
      (b.toNat &&& m % 256) + 256 * (littleEndian bs &&& m / 256) := by
  have hlow : (littleEndian (b :: bs) &&& m) % 2 ^ 8 = b.toNat &&& m % 2 ^ 8 := by
    rw [Nat.and_mod_two_pow, littleEndian, Nat.add_mul_mod_self_left, Nat.mod_eq_of_lt b.isLt]
  have hhigh : (littleEndian (b :: bs) &&& m) / 2 ^ 8 = littleEndian bs &&& m / 2 ^ 8 := by
    rw [Nat.and_div_two_pow, littleEndian, Nat.add_mul_div_left _ _ (by decide),
      Nat.div_eq_of_lt b.isLt, Nat.zero_add]
  rw [← Nat.mod_add_div (littleEndian (b :: bs) &&& m) (2 ^ 8), hlow, hhigh]
  rfl

/-- A match of one byte is a match of the header, the mask finding nothing in the bytes after it. -/
theorem littleEndian_cons_and_eq_iff (b : Byte) (bs : List Byte) (m : Nat) {p : Nat}
    (hp : p < 256) : littleEndian (b :: bs) &&& m = p ↔
      b.toNat &&& m % 256 = p ∧ littleEndian bs &&& m / 256 = 0 := by
  have hbyte : b.toNat &&& m % 256 < 256 := Nat.and_le_left.trans_lt b.isLt
  rw [littleEndian_cons_and]
  omega

/-- A row's mask and match on the header decide checks 1 to 3, and OP decides the row (R71). -/
theorem row_header_iff {r : OpcodeRow} (hr : r ∈ opcodeRows) (h : Byte) :
    h.toNat &&& r.mask % 256 = r.pattern ↔
      opcodeRows[h.toNat % 8]? = some r ∧ HeaderLegal h := by
  revert r h
  decide

theorem row_pattern_lt {r : OpcodeRow} (hr : r ∈ opcodeRows) : r.pattern < 256 := by
  revert r
  decide

/-- Besides its match, the row of a header asks for R61's length and, of RDCH, for the high half of
the index byte (R71). -/
theorem row_bytes_mask {r : OpcodeRow} {h : Byte} (hrow : opcodeRows[h.toNat % 8]? = some r) :
    r.bytes = commandLength h ∧ r.mask / 256 = if headerOp h = .rdch then 0xF0 else 0 := by
  have hall : ∀ r ∈ opcodeRows, ∀ h : Byte, opcodeRows[h.toNat % 8]? = some r →
      r.bytes = commandLength h ∧ r.mask / 256 = if headerOp h = .rdch then 0xF0 else 0 := by
    decide
  exact hall r (List.mem_of_getElem? hrow) h hrow

/-- What a row's mask asks of the bytes after the header is check 4 (R65, R71). -/
theorem littleEndian_and_iff_operandsLegal {h : Byte} {rest : List Byte}
    (hlen : rest.length + 1 = commandLength h) :
    littleEndian rest &&& (if headerOp h = .rdch then 0xF0 else 0) = 0 ↔
      OperandsLegal (headerOp h) rest := by
  by_cases hop : headerOp h = .rdch
  · have hone : rest.length = 1 := by simpa [commandLength, hop, Op.length] using hlen
    obtain ⟨b, rfl⟩ := List.length_eq_one_iff.mp hone
    have hhigh : ∀ b : Byte, b.toNat &&& 0xF0 = 0 ↔ b.toNat / 16 = 0 := by decide
    simp [hop, OperandsLegal, littleEndian, hhigh]
  · simp [hop, OperandsLegal]

/-- A row accepts exactly the legal commands of its own OP (R71). -/
theorem accepts_iff {r : OpcodeRow} (hr : r ∈ opcodeRows) (h : Byte) (rest : List Byte) :
    r.accepts (h :: rest) = true ↔
      opcodeRows[h.toNat % 8]? = some r ∧ ∃ i, decode (h :: rest) = .ok i := by
  rw [OpcodeRow.accepts, Bool.and_eq_true, beq_iff_eq, beq_iff_eq,
    littleEndian_cons_and_eq_iff h rest r.mask (row_pattern_lt hr), row_header_iff hr,
    decode_isOk_iff, List.length_cons]
  by_cases hrow : opcodeRows[h.toNat % 8]? = some r
  · obtain ⟨hbytes, hmask⟩ := row_bytes_mask hrow
    rw [hbytes, hmask]
    simp only [hrow, true_and]
    exact and_congr_right fun hlen =>
      and_congr_right fun _ => littleEndian_and_iff_operandsLegal hlen
  · simp [hrow]

/-- The opcode of a command's record form. -/
def Instr.op : Instr → Op
  | .decode _ => .decode
  | .rdch _ => .rdch
  | .parchk _ => .parchk
  | .ivel _ _ _ => .ivel
  | .ipwm _ _ _ => .ipwm
  | .drive _ _ _ => .drive
  | .stepint _ => .stepint

theorem decodeOperands_ok_op {op : Op} {p0 p1 : Bool} {l : List Byte} {i : Instr}
    (h : decodeOperands op p0 p1 l = .ok i) : i.op = op := by
  unfold decodeOperands at h
  split at h
  case h_2 => split_ifs at h; cases h; rfl
  case h_8 => cases h
  all_goals cases h; rfl

/-- A decoded command's row is the one of the header's OP (R61, R71). -/
theorem opcodeRow_of_decode_ok {h : Byte} {rest : List Byte} {i : Instr}
    (hd : decode (h :: rest) = .ok i) : opcodeRows[h.toNat % 8]? = some i.opcodeRow := by
  obtain ⟨-, -, hread⟩ := decode_eq_ok_iff.mp hd
  have hrow : ∀ h : Byte, headerOp h = i.op → opcodeRows[h.toNat % 8]? = some i.opcodeRow := by
    cases i <;> simp only [Instr.op, Instr.opcodeRow] <;> decide
  exact hrow h (decodeOperands_ok_op hread).symm

/-- A legal header begins some legal command: with operand bytes of 0 (R69). -/
theorem exists_decode_ok_iff (h : Byte) :
    (∃ rest i, decode (h :: rest) = .ok i) ↔ HeaderLegal h := by
  constructor
  · rintro ⟨rest, hok⟩
    exact (decode_isOk_iff.mp hok).2.1
  · intro hlegal
    refine ⟨List.replicate (commandLength h - 1) 0, decode_isOk_iff.mpr ⟨?_, hlegal, ?_⟩⟩
    · have := commandLength_pos h
      rw [List.length_replicate]
      omega
    · intro _ b hb
      rw [List.eq_of_mem_replicate hb]
      rfl

/-! ### Absent references -/

/-- Operands of one length that are read alike make the same command. -/
theorem decode_congr {h : Byte} {l l' : List Byte} (hlen : l.length = l'.length)
    (hread : l.length + 1 = commandLength h →
      decodeOperands (headerOp h) (headerP0 h) (headerP1 h) l =
        decodeOperands (headerOp h) (headerP0 h) (headerP1 h) l') :
    decode (h :: l) = decode (h :: l') := by
  by_cases hcmd : l.length + 1 = commandLength h
  · simp only [decode, ← hlen, hread hcmd]
  · simp [decode, ← hlen, hcmd]

/-- Operands that hold a window are read from the channel value, the window and the output range,
each of the last two only when it is present (R63, R68). -/
theorem decodeOperands_congr {op : Op} {p0 p1 : Bool} {l l' : List Byte}
    (hlen : l.length = l'.length) (hop : l.length + 1 = op.length) (hlong : 6 ≤ l.length)
    (hchan : u16From l 0 = u16From l' 0)
    (hwindow : optionOf p0 (windowFrom l) = optionOf p0 (windowFrom l'))
    (hvelocity : optionOf p1 (velocityFrom l) = optionOf p1 (velocityFrom l'))
    (hpwm : optionOf p1 (pwmFrom l) = optionOf p1 (pwmFrom l')) :
    decodeOperands op p0 p1 l = decodeOperands op p0 p1 l' := by
  cases op with
  | ivel =>
    have h14 : l.length = 14 := Nat.succ.inj hop
    rw [decodeOperands_ivel _ _ h14, decodeOperands_ivel _ _ (hlen ▸ h14), hchan, hwindow, hvelocity]
  | ipwm =>
    have h18 : l.length = 18 := Nat.succ.inj hop
    rw [decodeOperands_ipwm _ _ h18, decodeOperands_ipwm _ _ (hlen ▸ h18), hchan, hwindow, hpwm]
  | drive =>
    have h6 : l.length = 6 := Nat.succ.inj hop
    rw [decodeOperands_drive _ _ h6, decodeOperands_drive _ _ (hlen ▸ h6), hchan, hwindow]
  | decode | rdch | parchk | stepint | reserved =>
    simp only [Op.length] at hop
    omega

/-- With P0 = 0 the bytes of the window may be any (R68). -/
theorem decode_window_absent {h c0 c1 : Byte} {x y : List Byte} (hp0 : headerP0 h = false)
    (hx : x.length = 4) (hy : y.length = 4) (rest : List Byte) :
    decode (h :: c0 :: c1 :: (x ++ rest)) = decode (h :: c0 :: c1 :: (y ++ rest)) := by
  have hpre : (c0 :: c1 :: x).length = 6 := congrArg (· + 2) hx
  have hpre' : (c0 :: c1 :: y).length = 6 := congrArg (· + 2) hy
  have hvelocity := (velocityFrom_append_right hpre rest).trans
    (velocityFrom_append_right hpre' rest).symm
  have hpwm := (pwmFrom_append_right hpre rest).trans (pwmFrom_append_right hpre' rest).symm
  have hlen : (c0 :: c1 :: x ++ rest).length = (c0 :: c1 :: y ++ rest).length := by
    rw [List.length_append, List.length_append, hpre, hpre']
  refine decode_congr hlen fun hop => ?_
  rw [hp0]
  refine decodeOperands_congr hlen hop ?_ rfl rfl (congrArg _ hvelocity) (congrArg _ hpwm)
  simp only [List.length_cons, List.length_append]
  omega

/-- With P1 = 0 the bytes of the output range may be any (R68). -/
theorem decode_range_absent {h : Byte} {pre x y : List Byte} (hp1 : headerP1 h = false)
    (hpre : pre.length = 6) (hxy : x.length = y.length) :
    decode (h :: (pre ++ x)) = decode (h :: (pre ++ y)) := by
  have hlen : (pre ++ x).length = (pre ++ y).length := by simp [hxy]
  have hchan : u16From (pre ++ x) 0 = u16From (pre ++ y) 0 := by
    rw [u16From_append_left (by omega), u16From_append_left (by omega)]
  have hwindow : windowFrom (pre ++ x) = windowFrom (pre ++ y) := by
    rw [windowFrom_append_left hpre, windowFrom_append_left hpre]
  refine decode_congr hlen fun hop => ?_
  rw [hp1]
  refine decodeOperands_congr hlen hop ?_ hchan (congrArg _ hwindow) rfl rfl
  rw [List.length_append]
  omega

/-! ### The statements -/

/-- Settles O1: the lengths the encoder writes are those its headers ask for, and each field is read
at the offset it is written at. -/
theorem encodedCommandDecodesBack : Obligations.EncodedCommandDecodesBack := by
  intro i more
  refine ⟨?_, decode_encode i⟩
  obtain ⟨h, rest, henc, hlen⟩ := encode_eq_cons i
  rw [henc]
  exact splitCommand_append h rest more hlen

/-- Settles O2: mask and match are the decoder's checks, and OP alone decides the row. -/
theorem opcodeMapDecidesLegality : Obligations.OpcodeMapDecidesLegality := by
  refine ⟨fun bs r hr => ?_, fun h => ?_⟩
  · cases bs with
    | nil =>
      have hempty : ∀ r ∈ opcodeRows, r.accepts [] = false := by decide
      simp [hempty r hr, decode]
    | cons h rest =>
      rw [accepts_iff hr]
      constructor
      · rintro ⟨hrow, i, hd⟩
        exact ⟨i, hd, Option.some.inj ((opcodeRow_of_decode_ok hd).symm.trans hrow)⟩
      · rintro ⟨i, hd, rfl⟩
        exact ⟨opcodeRow_of_decode_ok hd, i, hd⟩
  · rw [exists_decode_ok_iff]
    revert h
    decide

/-- Settles O3: the list is the complement of the decoder's checks. -/
theorem listedEncodingsAreTheIllegalOnes : Obligations.ListedEncodingsAreTheIllegalOnes := by
  intro h rest hlen
  rw [← commandLength_eq] at hlen
  have hlegal : (∃ i, decode (h :: rest) = .ok i) ↔ ¬ Machine.IllegalEncoding (h :: rest) := by
    rw [decode_isOk_iff, not_illegalEncoding_iff, and_iff_right hlen]
  refine ⟨hlegal, fun hill s => ?_⟩
  cases hd : decode (h :: rest) with
  | ok i => exact absurd hill (hlegal.mp ⟨i, hd⟩)
  | error e => exact ⟨_, Machine.runCommand_error hd s, .of_raise s .illegalCmd⟩

/-- Settles O4: no field that is read lies in the bytes of an absent reference. -/
theorem absentFieldsAreIgnored : Obligations.AbsentFieldsAreIgnored := by
  refine ⟨fun h c0 c1 x y rest hp0 hx hy => ?_, fun h pre x y hp1 hpre hxy => ?_⟩
  · obtain ⟨-, hiff, -⟩ := header_parts h
    have hfalse : headerP0 h = false := by simpa [hp0] using hiff
    exact decode_window_absent hfalse hx hy rest
  · obtain ⟨-, -, hiff, -⟩ := header_parts h
    have hfalse : headerP1 h = false := by simpa [hp1] using hiff
    exact decode_range_absent hfalse hpre hxy

/-- Settles O5, by running the decoder. -/
theorem specWordsDecode : Obligations.SpecWordsDecode :=
  ⟨rfl, rfl, rfl, rfl, rfl, rfl⟩

end Sys2Proof
end

section
/-! The commands and the host's moves as steps: every answer is one the table lists, DRIVE uses up the
pin answers, a step runs the decoded command or refuses a stream that ends inside it, LOADFRAME and
PINS (spec/30_encoding.md R64, R65, R70, R78). -/

namespace Sys2Proof.Machine

/-- Settles O43, by the outcomes of a command: a loaded frame excludes the fault. -/
theorem everyCommandAnswersAListedStatus : Obligations.EveryCommandAnswersAListedStatus := by
  intro i s hframe
  rcases exec_cases i s with ⟨st, r, hst, -, -, hx | hx⟩ | ⟨f, hf, hx⟩ | ⟨rfl, -, hx⟩ |
    ⟨rfl, -, bank, hx⟩ | ⟨-, -, f, -, hx⟩ | ⟨chan, w, lv, st, r, rfl, hst, hx⟩
  · exact ⟨_, _, hx, rfl, hst, rfl, rfl⟩
  · exact ⟨_, _, hx, rfl, hst, rfl, rfl⟩
  · exact ⟨_, _, hx, rfl, hf, rfl, rfl⟩
  · exact ⟨_, _, hx, rfl, by simp [allowedStatus], rfl, rfl⟩
  · exact ⟨_, _, hx, rfl, by simp [allowedStatus], rfl, rfl⟩
  · exact absurd hx (hframe.exec_ne_fault i f)
  · refine ⟨_, _, hx, rfl, ?_, rfl, rfl⟩
    obtain rfl | rfl := hst <;> simp [allowedStatus]

/-- The two pin writes of DRIVE spend both answers (R78; log 4). -/
theorem drivePins_pins (fwd : Bool) (s : State) : (drivePins fwd s).2.pins = ⟨0, 0⟩ := by
  rw [drivePins_eq]

/-- DRIVE where the pin environment answers 0 twice (R155). -/
theorem exec_drive_answers_zero {s : State} (hs : s.pins = ⟨0, 0⟩) (chan : U16)
    (w : ChannelWindow) : exec (.drive chan (some w) .present) s =
      .next ((drivePins (forward chan w) s).2.respond .ok 0) := by
  rw [exec_drive_present, hs]
  rfl

/-- Settles O48. -/
theorem driveUsesUpThePinAnswers : Obligations.DriveUsesUpThePinAnswers := by
  intro chan chan' w w' s
  have hspent := drivePins_pins (forward chan w) s
  exact ⟨_, _, exec_drive_present chan w s, hspent, exec_drive_answers_zero hspent chan' w',
    ⟨_, rfl, rfl, rfl⟩, drivePins_pins _ _⟩

/-- Past a whole command the host's moves are those after its bytes (R27). -/
theorem State.advance_of_host {s : State} {cmd : List Byte} {moves : List HostMove}
    (hs : s.host = cmd.map .cmdByte ++ moves) :
    s.advance cmd.length = { s with host := moves, cp := s.cp + cmd.length } := by
  simp [State.advance, hs]

/-- Settles O6: a string that decodes has the length its header asks for, so the host's next command is
that string. -/
theorem stepRunsDecodedCommand : Obligations.StepRunsDecodedCommand := by
  intro s cmd moves i hs hd
  obtain ⟨h, rest, rfl, hlen⟩ := decode_ok_length hd
  rw [step_of_host hs hlen, runCommand_ok hd, ← State.advance_of_host hs, List.length_cons]

/-- Settles O8. -/
theorem truncatedStreamIsRefused : Obligations.TruncatedStreamIsRefused := by
  intro s h rest hs hlen
  rw [← commandLength_eq] at hlen
  have hlead : leadingBytes s.host = h :: rest := by
    have happ := leadingBytes_append (h :: rest) []
    rwa [List.append_nil, ← hs, leadingBytes, List.append_nil] at happ
  have hsplit : splitCommand (h :: rest) = none := if_pos hlen
  have hnone : s.nextCommand = none := by rw [State.nextCommand, hlead, hsplit]
  have hhost : s.host = .cmdByte h :: rest.map .cmdByte := hs
  simp only [step, hhost, hnone]

/-- Settles O9. -/
theorem loadFrameFillsBuffer : Obligations.LoadFrameFillsBuffer := by
  intro s bytes moves hs hlen
  refine ⟨_, (step_loadFrame hs).trans (State.loadFrame_eq (by omega)), rfl, fun i _ => ?_,
    ⟨rfl, rfl⟩, ⟨rfl, rfl, rfl, rfl⟩, rfl, ?_, rfl⟩
  · exact Memory.read_ofBytes bytes 0 i
  · exact congrArg List.tail hs

/-- Settles O10. -/
theorem pinsMoveSetsAnswers : Obligations.PinsMoveSetsAnswers := by
  intro s answers moves hs
  exact ⟨_, step_pins hs, rfl, ⟨rfl, rfl⟩, ⟨fun _ => rfl, rfl⟩, rfl, rfl, rfl, rfl,
    congrArg List.tail hs, rfl⟩

end Sys2Proof.Machine
end

section
/-! The frame decoder (spec/40_frame_decoder.md R100 to R108): DECODE of a buffer whose payload bytes
are known, what RDCH and PARCHK answer, and which two bytes each of these is. -/

namespace Sys2Proof

/-! ### The two-byte commands -/

/-- A string decodes to a command when its header is a legal one of the command's opcode and the
operand bytes read as the command (R65). -/
theorem decode_eq_ok_iff_op {h : Byte} {rest : List Byte} {i : Instr} : decode (h :: rest) = .ok i ↔
    rest.length + 1 = i.op.length ∧ (headerOp h = i.op ∧ HeaderLegal h) ∧
      decodeOperands i.op (headerP0 h) (headerP1 h) rest = .ok i := by
  rw [decode_eq_ok_iff]
  constructor
  · rintro ⟨hlen, hlegal, hread⟩
    rw [decodeOperands_ok_op hread]
    exact ⟨hlen, ⟨rfl, hlegal⟩, hread⟩
  · rintro ⟨hlen, ⟨hop, hlegal⟩, hread⟩
    rw [commandLength, hop]
    exact ⟨hlen, hlegal, hread⟩

/-- RDCH has one legal header (R69). -/
theorem rdch_header_iff (h : Byte) : headerOp h = .rdch ∧ HeaderLegal h ↔ h = 1 := by
  revert h
  decide

/-- PARCHK has one legal header (R69). -/
theorem parchk_header_iff (h : Byte) : headerOp h = .parchk ∧ HeaderLegal h ↔ h = 2 := by
  revert h
  decide

/-- The index byte of RDCH is the index itself: the bits above it must be 0 (R65 check 4). -/
theorem decodeOperands_rdch_eq_ok_iff (p0 p1 : Bool) (b : Byte) (k : BitVec 4) :
    decodeOperands .rdch p0 p1 [b] = .ok (.rdch k) ↔ b.toNat = k.toNat := by
  have hlow : (b.extractLsb' 0 4).toNat = b.toNat % 16 := by simp
  have hk : k.toNat < 16 := k.isLt
  simp only [decodeOperands_rdch, ne_eq, ite_not, ite_eq_iff, Except.ok.injEq, Instr.rdch.injEq,
    reduceCtorEq, and_false, or_false, ← BitVec.toNat_inj, hlow]
  omega

theorem decode_rdch_iff (h b : Byte) (k : BitVec 4) :
    decode [h, b] = .ok (.rdch k) ↔ h = 1 ∧ b.toNat = k.toNat := by
  rw [decode_eq_ok_iff_op, Instr.op, rdch_header_iff, decodeOperands_rdch_eq_ok_iff]
  exact and_iff_right rfl

theorem decode_parchk_iff (h b flag : Byte) :
    decode [h, b] = .ok (.parchk flag) ↔ h = 2 ∧ b = flag := by
  have hread (p0 p1 : Bool) : decodeOperands .parchk p0 p1 [b] = .ok (.parchk flag) ↔ b = flag := by
    simp [decodeOperands]
  rw [decode_eq_ok_iff_op, Instr.op, parchk_header_iff, hread]
  exact and_iff_right rfl

end Sys2Proof

namespace Sys2Proof.Machine

/-! ### DECODE -/

/-- The table looks at the payload indices alone (R104). -/
theorem channelTable_congr {c d : Nat → Nat} (h : ∀ i, 1 ≤ i → i ≤ 22 → c i = d i) :
    channelTable c = channelTable d := by
  simp [channelTable, h]

/-- DECODE of a buffer whose payload bytes are `b` fills the bank from the table over `b` (R100). -/
theorem exec_decode_payload {s : State} {b : Nat → Byte} (hb : PayloadIs s b)
    (hlen : 23 ≤ s.flen.val) : exec (.decode .present) s =
      .next ((s.setBank (channelTable fun i => (b i).toNat)).respond .ok 0) := by
  rw [← channelTable_congr (payloadByte_range b)]
  exact execDecode_present b hlen hb

/-- A DECODE that answers from 23 bytes or more has found a value in every payload byte (R42). -/
theorem exists_payloadIs_of_exec_decode {s t : State} (hlen : 23 ≤ s.flen.val)
    (h : exec (.decode .present) s = .next t) : ∃ b, PayloadIs s b := by
  rw [exec_decode_present, if_neg (by omega)] at h
  cases hm : s.memReads 1 22 with
  | error f => rw [hm] at h; cases h
  | ok bytes =>
    obtain ⟨hbytes, hread⟩ := (s.memReads_eq_ok 22 1 bytes).mp hm
    refine ⟨fun i => bytes.getD (i - 1) 0, fun i h1 h22 => ?_⟩
    have hi : i - 1 < bytes.length := by omega
    obtain ⟨-, hval⟩ := (s.memRead_eq_ok _ _).mp (hread (i - 1) hi)
    rwa [Nat.add_sub_cancel' h1, ← List.getD_eq_getElem bytes 0 hi] at hval

/-- DECODE of a short buffer (R104). -/
theorem exec_decode_short {s : State} (hlen : s.flen.val < 23) :
    exec (.decode .present) s = .next (s.loseBank.clearValid.raise .shortBuffer) :=
  if_pos hlen

/-- A row's mask in numbers (R101). -/
theorem chan11_toNat (v : Nat) : (chan11 v).toNat = v &&& 0x7FF := by
  have hfits : v &&& 0x7FF < 2 ^ 11 := Nat.and_lt_two_pow v (by decide)
  rw [chan11, show params.chMask = 0x7FF from rfl, BitVec.toNat_ofNat, Nat.mod_eq_of_lt hfits]

/-- After DECODE, bit j of channel k is bit 11k + j of the payload (R102). -/
theorem channelTable_bytes_getLsbD (b : Nat → Byte) (k : Fin 16) {j : Nat} (hj : j < 11) :
    (channelTable fun i => (b i).toNat)[k].getLsbD j =
      (b (1 + (11 * k.val + j) / 8)).getLsbD ((11 * k.val + j) % 8) := by
  rw [channelTable_getLsbD (fun i => (b i).isLt) k hj, BitVec.testBit_toNat]

/-! ### RDCH and PARCHK -/

theorem exec_rdch_valid {s : State} (h : s.chv = true) (k : BitVec 4) :
    exec (.rdch k) s = .next (s.respond .ok ((s.channel k).setWidth 32)) :=
  if_pos h

theorem exec_rdch_invalid {s : State} (h : s.chv = false) (k : BitVec 4) :
    exec (.rdch k) s = .next (s.raise .chanInvalid) :=
  if_neg (by simp [h])

/-- The top two bits of the flag byte are clear when it is at most 0x3F (R108). -/
theorem and_parityMask_eq_zero_iff (flag : Byte) :
    flag &&& params.parityMask = 0 ↔ flag.toNat ≤ 0x3F := by
  revert flag
  decide

/-! ### The statements -/

/-- Settles O13: the bank DECODE sets is the table, whose rows are these expressions. -/
theorem decodeFillsBankFromTable : Obligations.DecodeFillsBankFromTable := by
  intro s b hb hlen
  refine ⟨_, exec_decode_payload hb hlen, ⟨_, rfl, rfl, rfl⟩, rfl, ⟨rfl, rfl, rfl, rfl⟩,
    ⟨fun _ => rfl, rfl⟩, ⟨rfl, rfl⟩, rfl, ?_⟩
  simp [channelTable, chan11_toNat]

/-- Settles O14: place 8 (i - 1) + n of the payload is bit n of its byte i. -/
theorem decodeWiresEveryPayloadBit : Obligations.DecodeWiresEveryPayloadBit := by
  intro s b hb hlen
  refine ⟨_, exec_decode_payload hb hlen, fun k j hj => channelTable_bytes_getLsbD b k hj, ?_⟩
  intro k j i n h1 _ hn hj hplace
  have hbyte : 1 + (11 * k.val + j) / 8 = i := by omega
  have hbit : (11 * k.val + j) % 8 = n := by omega
  have hwired := channelTable_bytes_getLsbD b k hj
  rwa [hbyte, hbit] at hwired

/-- Settles O17: an answered DECODE has read the payload of its own state, which is that of the
other. -/
theorem decodeLooksAtLengthAndPayloadOnly : Obligations.DecodeLooksAtLengthAndPayloadOnly := by
  constructor
  · intro s hlen
    exact ⟨_, exec_decode_short hlen, .of_raise _ .shortBuffer,
      .of_raise s.loseBank.clearValid .shortBuffer, rfl, ⟨rfl, rfl, rfl, rfl⟩,
      ⟨fun _ => rfl, rfl⟩, ⟨rfl, rfl⟩⟩
  · intro s s' t hlen hlen' hsame h
    obtain ⟨b, hb⟩ := exists_payloadIs_of_exec_decode hlen h
    have hb' : PayloadIs s' b := fun i h1 h22 => (hsame i h1 h22).trans (hb i h1 h22)
    cases (exec_decode_payload hb hlen).symm.trans h
    exact ⟨_, exec_decode_payload hb' hlen', rfl, rfl, rfl⟩

/-- Settles O18. -/
theorem rdchReadsBank : Obligations.RdchReadsBank := by
  refine ⟨decode_rdch_iff, fun k s => ⟨fun hchv => ?_, fun hchv => ?_⟩⟩
  · have hres : ((s.channel k).setWidth 32).toNat = (s.channel k).toNat :=
      BitVec.toNat_setWidth_of_le (by omega)
    have hmax : (s.channel k).toNat ≤ 2047 := Nat.le_of_lt_succ (s.channel k).isLt
    exact ⟨_, _, exec_rdch_valid hchv k, ⟨_, rfl, rfl, rfl⟩, hres, hres.trans_le hmax,
      .of_respond _ _ _, rfl⟩
  · exact ⟨_, exec_rdch_invalid hchv k, .of_raise s .chanInvalid, .of_raise s .chanInvalid,
      .of_raise s .chanInvalid⟩

/-- Settles O19. -/
theorem parchkChecksTopBits : Obligations.ParchkChecksTopBits := by
  refine ⟨decode_parchk_iff, fun flag s => ⟨_, _, rfl, ⟨_, rfl, rfl, rfl⟩, fun hlow => ?_,
    fun hhigh => ?_, .of_respond _ _ _, rfl⟩⟩
  · exact if_pos ((and_parityMask_eq_zero_iff flag).mpr hlow)
  · exact if_neg (mt (and_parityMask_eq_zero_iff flag).mp (not_le.mpr hhigh))

/-- Settles O20: row 0 of the table is (0x01 | 0xFF << 8) & 0x7FF, which is 1793. -/
theorem decodeThenRdchLiteral : Obligations.DecodeThenRdchLiteral := by
  intro s hframe hlen h1 h2
  refine ⟨_, exec_decode_payload (hframe.payloadIs hlen) hlen, _, exec_rdch_valid rfl 0,
    _, rfl, rfl, ?_⟩
  have hrow : (chan11 (0x01 ||| 0xFF <<< 8)).setWidth 32 = 1793#32 := rfl
  simpa [State.channel, channelTable, h1, h2] using hrow

/-- Settles O16. -/
theorem decodeWithoutBuffer : Obligations.DecodeWithoutBuffer :=
  fun _ => ⟨_, rfl, ⟨_, rfl, rfl, rfl⟩, .of_respond _ _ _, rfl⟩

end Sys2Proof.Machine
end

section
/-! The channel mappers IVEL and IPWM (spec/41_channel_mapper.md). Both answer an evaluated command
the same way, `State.answered`, and both follow the one policy `region`; so each statement is what
`velocity` or `pwm` is in a region, read through those two. -/

namespace Sys2Proof.Machine

/-! ### Answering an evaluated command -/

/-- The state after an evaluated mapper command: its value beside a drawn NaN, or its fault (R120,
R130). -/
def State.answered (s : State) : Except SpecFault (BitVec 32) → State
  | .ok r => s.countDraw.respond .ok r
  | .error f => s.raise f

theorem exec_ivel (chan : U16) (w : ChannelWindow) (v : VelocityRange) (s : State) :
    exec (.ivel chan (some w) (some v)) s =
      .next (s.answered (velocity params (drawnNaN s.draws) chan w v)) := by
  simp only [exec, execIvel]
  cases velocity params (drawnNaN s.draws) chan w v <;> rfl

theorem exec_ipwm (chan : U16) (w : ChannelWindow) (r : PwmRange) (s : State) :
    exec (.ipwm chan (some w) (some r)) s =
      .next (s.answered (pwm params (drawnNaN s.draws) chan w r)) := by
  simp only [exec, execIpwm]
  cases pwm params (drawnNaN s.draws) chan w r <;> rfl

theorem SameButAnswer.of_answered (s : State) (o : Except SpecFault (BitVec 32)) :
    SameButAnswer s (s.answered o) := by
  cases o with
  | ok r => exact .of_countDraw_respond s .ok r
  | error f => exact .of_raise s f

/-- The five fault codes differ (R180). -/
theorem Status.fault_code_inj {f g : SpecFault} :
    (Status.fault f).code = (Status.fault g).code ↔ f = g := by
  cases f <;> cases g <;> decide

theorem Status.ok_code_ne_fault_code (f : SpecFault) : Status.ok.code ≠ (Status.fault f).code := by
  cases f <;> decide

theorem responds_answered_fault_iff {s : State} {o : Except SpecFault (BitVec 32)} {f : SpecFault} :
    Responds (s.answered o) (Status.fault f).code ↔ o = .error f := by
  cases o with
  | ok r => simp [Responds, State.answered, Status.ok_code_ne_fault_code]
  | error g => simp [Responds, State.answered, Status.fault_code_inj]

theorem respondsWith_answered_ok_iff {s : State} {o : Except SpecFault (BitVec 32)}
    {r : BitVec 32} : RespondsWith (s.answered o) Status.ok.code r ↔ o = .ok r := by
  cases o with
  | ok x => simp [RespondsWith, State.answered]
  | error f => simp [RespondsWith, State.answered, (Status.ok_code_ne_fault_code f).symm]

theorem SetsOnly.of_responds_answered {s : State} {o : Except SpecFault (BitVec 32)} {f : SpecFault}
    (h : Responds (s.answered o) (Status.fault f).code) : SetsOnly f.bit s (s.answered o) := by
  obtain rfl := responds_answered_fault_iff.mp h
  exact .of_raise s f

theorem flt_answered_of_responds_ok {s : State} {o : Except SpecFault (BitVec 32)}
    (h : Responds (s.answered o) Status.ok.code) : (s.answered o).flt = s.flt := by
  obtain ⟨r, hresp, hcode⟩ := h
  obtain rfl := respondsWith_answered_ok_iff.mp ⟨r, hresp, hcode, rfl⟩
  rfl

theorem answers_ivel_iff {chan : U16} {w : ChannelWindow} {v : VelocityRange} {s : State} {x : F} :
    Answers (.ivel chan (some w) (some v)) s 0 x ↔
      velocity params (drawnNaN s.draws) chan w v = .ok x := by
  simp only [Answers, exec_ivel, Host.Outcome.next.injEq, exists_eq_left']
  exact respondsWith_answered_ok_iff

theorem answers_ipwm_iff {chan : U16} {w : ChannelWindow} {r : PwmRange} {s : State} {x : S32} :
    Answers (.ipwm chan (some w) (some r)) s 0 x ↔
      pwm params (drawnNaN s.draws) chan w r = .ok x := by
  simp only [Answers, exec_ipwm, Host.Outcome.next.injEq, exists_eq_left']
  exact respondsWith_answered_ok_iff

/-! ### The policy -/

section
variable {lo hi chan : U16} {w : ChannelWindow}

theorem region_below_iff : region lo hi chan w = .below ↔ chan.toNat < w.min.toNat := by
  rw [region_eq]
  split_ifs <;> simp_all

theorem region_above_iff :
    region lo hi chan w = .above ↔ w.min.toNat ≤ chan.toNat ∧ w.max.toNat < chan.toNat := by
  rw [region_eq]
  split_ifs <;> simp_all

theorem region_deadzone_iff :
    region lo hi chan w = .deadzone ↔ Inside chan w ∧ InDeadzone lo.toNat hi.toNat chan := by
  rw [region_eq, Inside, InDeadzone]
  split_ifs <;> simp <;> omega

theorem region_between_iff :
    region lo hi chan w = .between ↔ Inside chan w ∧ ¬ InDeadzone lo.toNat hi.toNat chan := by
  rw [region_eq, Inside, InDeadzone]
  split_ifs <;> simp <;> omega

/-- In a window of one value, `chan` is that value. -/
theorem inside_iff_of_max_eq_min (h : w.max = w.min) : Inside chan w ↔ chan = w.min := by
  rw [Inside, h, ← Nat.le_antisymm_iff, eq_comm, ← BitVec.toNat_inj]

/-- Where the policy divides by 0 (R124, R134). -/
theorem region_between_max_eq_min_iff : region lo hi chan w = .between ∧ w.max = w.min ↔
    chan = w.min ∧ w.max = w.min ∧ ¬ InDeadzone lo.toNat hi.toNat chan := by
  rw [region_between_iff, and_assoc, and_comm (a := ¬ _), ← and_assoc,
    and_congr_left inside_iff_of_max_eq_min, and_assoc]

end

/-! ### IVEL -/

section
variable {nan : F} {chan : U16} {w : ChannelWindow} {v : VelocityRange}

theorem velocity_below (h : chan.toNat < w.min.toNat) :
    velocity params nan chan w v = .ok v.min := by
  simp only [velocity, region_below_iff.mpr h]

theorem velocity_above (hmin : w.min.toNat ≤ chan.toNat) (hmax : w.max.toNat < chan.toNat) :
    velocity params nan chan w v = .ok v.max := by
  simp only [velocity, region_above_iff.mpr ⟨hmin, hmax⟩]

theorem velocity_deadzone (hin : Inside chan w) (hdz : InDeadzone 950 1050 chan) :
    velocity params nan chan w v = .ok (fdiv nan (fadd nan v.min v.max) 0x40000000) := by
  have hregion : region params.velDzLo params.velDzHi chan w = .deadzone :=
    region_deadzone_iff.mpr ⟨hin, hdz⟩
  have htwo : params.float.ofInt 2 = 0x40000000 := by decide
  simp only [velocity, hregion, htwo]
  rfl

theorem velocity_between (hin : Inside chan w) (hdz : ¬ InDeadzone 950 1050 chan)
    (hne : w.max ≠ w.min) : velocity params nan chan w v =
      .ok (fadd nan v.min
        (fmul nan (fdiv nan (fsub nan v.max v.min) (i2f ((w.max.toNat : Int) - w.min.toNat)))
          (i2f ((chan.toNat : Int) - w.min.toNat)))) := by
  have hregion : region params.velDzLo params.velDzHi chan w = .between :=
    region_between_iff.mpr ⟨hin, hdz⟩
  simp only [velocity, hregion, if_neg hne]
  rfl

theorem velocity_divZero_iff : velocity params nan chan w v = .error .divZero ↔
    chan = w.min ∧ w.max = w.min ∧ ¬ InDeadzone 950 1050 chan := by
  refine Iff.trans ⟨fun h => ?_, fun ⟨hregion, heq⟩ => ?_⟩
    (region_between_max_eq_min_iff (lo := params.velDzLo) (hi := params.velDzHi))
  · exact (velocity_error h).2
  · simp only [velocity, hregion, if_pos heq]

theorem exists_velocity_ok (h : ¬ (chan = w.min ∧ w.max = w.min ∧ ¬ InDeadzone 950 1050 chan)) :
    ∃ r, velocity params nan chan w v = .ok r := by
  cases hv : velocity params nan chan w v with
  | ok r => exact ⟨r, rfl⟩
  | error f =>
    obtain ⟨rfl, -⟩ := velocity_error hv
    exact absurd (velocity_divZero_iff.mp hv) h

end

/-! ### A NaN operand of an operation (R14) -/

section
variable {nan a b : F}

theorem isNaN_iff {w : F} : isNaN w = true ↔ unpack w = .nan := by simp [isNaN]

theorem fadd_of_isNaN (h : isNaN a = true ∨ isNaN b = true) : fadd nan a b = nan := by
  rw [isNaN_iff, isNaN_iff] at h
  unfold fadd
  rcases h with h | h <;> rw [h]
  cases unpack a <;> rfl

theorem fmul_of_isNaN_left (h : isNaN a = true) : fmul nan a b = nan := by
  rw [fmul, isNaN_iff.mp h]

theorem fdiv_of_isNaN_left (h : isNaN a = true) : fdiv nan a b = nan := by
  rw [fdiv, isNaN_iff.mp h]

theorem fsub_of_isNaN_left (h : isNaN a = true) : fsub nan a b = nan :=
  fadd_of_isNaN (.inl h)

/-- +inf plus -inf is a NaN (R123). -/
theorem fadd_opposite_infinities (nan : F) : fadd nan 0x7F800000 0xFF800000 = nan := by
  have hpos : unpack 0x7F800000 = .inf false := by decide
  have hneg : unpack 0xFF800000 = .inf true := by decide
  rw [fadd, hpos, hneg]
  rfl

/-- Step 3 of IVEL with a NaN sum (R123). -/
theorem ivel_midpoint_eq_nan (hnan : isNaN nan = true)
    (h : isNaN a = true ∨ isNaN b = true ∨ (a = 0x7F800000 ∧ b = 0xFF800000)) (two : F) :
    fdiv nan (fadd nan a b) two = nan := by
  have hsum : fadd nan a b = nan := by
    rcases h with h | h | ⟨rfl, rfl⟩
    · exact fadd_of_isNaN (.inl h)
    · exact fadd_of_isNaN (.inr h)
    · exact fadd_opposite_infinities nan
  rw [hsum, fdiv_of_isNaN_left hnan]

/-- Step 4 of IVEL with a NaN operand: it passes through the four operations (R123). -/
theorem ivel_interpolation_eq_nan (hnan : isNaN nan = true)
    (h : isNaN a = true ∨ isNaN b = true) (dc off : F) :
    fadd nan a (fmul nan (fdiv nan (fsub nan b a) dc) off) = nan := by
  rcases h with h | h
  · exact fadd_of_isNaN (.inl h)
  · rw [fsub_of_isNaN_left h, fdiv_of_isNaN_left hnan, fmul_of_isNaN_left hnan,
      fadd_of_isNaN (.inr hnan)]

end

/-! ### Narrowing -/

/-- What narrowing answers is the number itself (R135). -/
theorem toInt_of_narrow_ok {n : Int} {x : S32} (h : narrow (some n) = .ok x) : x.toInt = n := by
  rw [narrow_some] at h
  split at h
  · cases h
  · next hfit =>
    cases h
    rw [BitVec.toInt_ofInt]
    exact Int.bmod_eq_of_le (by omega) (by omega)

theorem narrow_some_error_iff {n : Int} {f : SpecFault} : narrow (some n) = .error f ↔
    f = .resultRange ∧ (n < -2 ^ 31 ∨ 2 ^ 31 - 1 < n) := by
  rw [narrow_some]
  split
  · next h => simp only [h, and_true, Except.error.injEq, eq_comm]
  · next h => simp only [h, and_false, reduceCtorEq]

theorem exists_narrow_ok {n : Int} (hlo : -2 ^ 31 ≤ n) (hhi : n ≤ 2 ^ 31 - 1) :
    ∃ x, narrow (some n) = .ok x ∧ x.toInt = n := by
  have hok : narrow (some n) = .ok (BitVec.ofInt 32 n) := by
    rw [narrow_some, if_neg (by omega)]
  exact ⟨_, hok, toInt_of_narrow_ok hok⟩

/-! ### IPWM -/

section
variable {nan : F} {chan : U16} {w : ChannelWindow} {r : PwmRange}

theorem pwm_below (h : chan.toNat < w.min.toNat) : pwm params nan chan w r = .ok r.min := by
  simp only [pwm, region_below_iff.mpr h]

theorem pwm_above (hmin : w.min.toNat ≤ chan.toNat) (hmax : w.max.toNat < chan.toNat) :
    pwm params nan chan w r = .ok r.max := by
  simp only [pwm, region_above_iff.mpr ⟨hmin, hmax⟩]

theorem pwm_deadzone (hin : Inside chan w) (hdz : InDeadzone 995 1005 chan) :
    pwm params nan chan w r = narrow (some (Int.tdiv (r.min.toInt + r.max.toInt) 2)) := by
  have hregion : region params.pwmDzLo params.pwmDzHi chan w = .deadzone :=
    region_deadzone_iff.mpr ⟨hin, hdz⟩
  simp only [pwm, hregion, ← tdiv_eq]
  rfl

theorem pwm_between (hin : Inside chan w) (hdz : ¬ InDeadzone 995 1005 chan)
    (hne : w.max ≠ w.min) :
    pwm params nan chan w r = narrow (some (pwmFormula chan w r)) := by
  have hregion : region params.pwmDzLo params.pwmDzHi chan w = .between :=
    region_between_iff.mpr ⟨hin, hdz⟩
  simp only [pwm, hregion, if_neg hne, pwmFormula, ← tdiv_eq]
  rfl

theorem pwm_divZero (hin : Inside chan w) (hdz : ¬ InDeadzone 995 1005 chan)
    (heq : w.max = w.min) : pwm params nan chan w r = .error .divZero := by
  have hregion : region params.pwmDzLo params.pwmDzHi chan w = .between :=
    region_between_iff.mpr ⟨hin, hdz⟩
  simp only [pwm, hregion, if_pos heq]

/-- The midpoint of two s32 numbers is one, so it is always answered (R135). -/
theorem exists_pwm_deadzone (hin : Inside chan w) (hdz : InDeadzone 995 1005 chan) :
    ∃ x, pwm params nan chan w r = .ok x ∧
      x.toInt = Int.tdiv (r.min.toInt + r.max.toInt) 2 := by
  rw [pwm_deadzone hin hdz]
  have hmin := r.min.le_toInt
  have hmin' := r.min.toInt_lt
  have hmax := r.max.le_toInt
  have hmax' := r.max.toInt_lt
  have hfit : -2 ^ 31 ≤ Int.tdiv (r.min.toInt + r.max.toInt) 2 ∧
      Int.tdiv (r.min.toInt + r.max.toInt) 2 ≤ 2 ^ 31 - 1 := by
    rw [Int.tdiv_eq_ediv, show Int.sign 2 = 1 from rfl]
    split <;> omega
  exact exists_narrow_ok hfit.1 hfit.2

/-- Outside step 3 IPWM answers (R130). -/
theorem exists_pwm_ok (h : ¬ (Inside chan w ∧ ¬ InDeadzone 995 1005 chan)) :
    ∃ x, pwm params nan chan w r = .ok x := by
  by_cases hbelow : chan.toNat < w.min.toNat
  · exact ⟨_, pwm_below hbelow⟩
  by_cases habove : w.max.toNat < chan.toNat
  · exact ⟨_, pwm_above (not_lt.mp hbelow) habove⟩
  have hin : Inside chan w := ⟨not_lt.mp hbelow, not_lt.mp habove⟩
  obtain ⟨x, hx, -⟩ := exists_pwm_deadzone (nan := nan) (r := r) hin
    (not_not.mp fun hdz => h ⟨hin, hdz⟩)
  exact ⟨x, hx⟩

/-- The faults of IPWM come from step 3: DivZero in a window of one value, else ResultRange for a
result that does not fit (R134, R135). -/
theorem pwm_error_iff {f : SpecFault} : pwm params nan chan w r = .error f ↔
    (Inside chan w ∧ ¬ InDeadzone 995 1005 chan) ∧
      if w.max = w.min then f = .divZero
      else f = .resultRange ∧ (pwmFormula chan w r < -2 ^ 31 ∨ 2 ^ 31 - 1 < pwmFormula chan w r) := by
  by_cases h : Inside chan w ∧ ¬ InDeadzone 995 1005 chan
  · rw [and_iff_right h]
    obtain ⟨hin, hdz⟩ := h
    split
    · next heq => rw [pwm_divZero hin hdz heq, Except.error.injEq, eq_comm]
    · next hne => rw [pwm_between hin hdz hne, narrow_some_error_iff]
  · obtain ⟨x, hx⟩ := exists_pwm_ok (nan := nan) (r := r) h
    simp only [hx, h, false_and, reduceCtorEq]

theorem pwm_divZero_iff : pwm params nan chan w r = .error .divZero ↔
    chan = w.min ∧ w.max = w.min ∧ ¬ InDeadzone 995 1005 chan := by
  refine Iff.trans ?_ (region_between_max_eq_min_iff (lo := params.pwmDzLo) (hi := params.pwmDzHi))
  rw [pwm_error_iff, region_between_iff]
  refine and_congr_right fun _ => ?_
  split <;> simp_all

theorem pwm_resultRange_iff : pwm params nan chan w r = .error .resultRange ↔
    Inside chan w ∧ ¬ InDeadzone 995 1005 chan ∧ w.min ≠ w.max ∧
      (pwmFormula chan w r < -2 ^ 31 ∨ 2 ^ 31 - 1 < pwmFormula chan w r) := by
  rw [pwm_error_iff, and_assoc, ne_comm]
  refine and_congr_right fun _ => and_congr_right fun _ => ?_
  split <;> simp_all

/-- What step 3 answers is the formula's number (R130). -/
theorem toInt_of_pwm_ok {x : S32} (h : pwm params nan chan w r = .ok x) (hin : Inside chan w)
    (hdz : ¬ InDeadzone 995 1005 chan) : x.toInt = pwmFormula chan w r := by
  by_cases heq : w.max = w.min
  · rw [pwm_divZero hin hdz heq] at h
    cases h
  · rw [pwm_between hin hdz heq] at h
    exact toInt_of_narrow_ok h

theorem pwmFormula_min (w : ChannelWindow) (r : PwmRange) : pwmFormula w.min w r = r.min.toInt := by
  simp [pwmFormula]

/-- With `pmid < pmax` the slope is at most 0, so the formula falls as the channel value rises
(R136). -/
theorem pwmFormula_le_of_le {chan' : U16} (hw : w.min.toNat ≤ w.max.toNat)
    (hr : r.mid.toInt < r.max.toInt) (h : chan.toNat ≤ chan'.toNat) :
    pwmFormula chan' w r ≤ pwmFormula chan w r := by
  have hslope : Int.tdiv (r.mid.toInt - r.max.toInt) ((w.max.toNat : Int) - w.min.toNat) ≤ 0 := by
    rw [← neg_sub r.max.toInt, Int.neg_tdiv]
    exact neg_nonpos.mpr (Int.tdiv_nonneg (by omega) (by omega))
  exact add_le_add_right (mul_le_mul_of_nonpos_left (by omega) hslope) _

end

/-! ### The statements -/

/-- Settles O24. -/
theorem ivelDivZeroExactly : Obligations.IvelDivZeroExactly := fun chan w v s =>
  ⟨_, exec_ivel chan w v s, .of_answered s _,
    (responds_answered_fault_iff (f := .divZero)).trans velocity_divZero_iff,
    .of_responds_answered (f := .divZero)⟩

/-- Settles O28. -/
theorem ipwmDivZeroExactly : Obligations.IpwmDivZeroExactly := fun chan w r s =>
  ⟨_, exec_ipwm chan w r s, .of_answered s _,
    (responds_answered_fault_iff (f := .divZero)).trans pwm_divZero_iff,
    .of_responds_answered (f := .divZero)⟩

/-- Settles O27. -/
theorem ipwmResultRangeExactly : Obligations.IpwmResultRangeExactly := fun chan w r s =>
  ⟨_, exec_ipwm chan w r s, .of_answered s _,
    (responds_answered_fault_iff (f := .resultRange)).trans pwm_resultRange_iff,
    .of_responds_answered (f := .resultRange)⟩

/-- Settles O21: outside the DivZero case there is a velocity, and each region says which. -/
theorem ivelInterpolates : Obligations.IvelInterpolates := by
  intro chan w v s hdiv
  obtain ⟨r, hr⟩ := exists_velocity_ok (nan := drawnNaN s.draws) (v := v) hdiv
  have hunique {x : F} (hx : velocity params (drawnNaN s.draws) chan w v = .ok x) : r = x :=
    Except.ok.inj (hr.symm.trans hx)
  have hstate : exec (.ivel chan (some w) (some v)) s = .next (s.countDraw.respond .ok r) := by
    rw [exec_ivel, hr]
    rfl
  refine ⟨_, drawnNaN s.draws, r, hstate, drawnNaN_isNaN _, ⟨_, rfl, rfl, rfl⟩,
    .of_countDraw_respond s .ok r, rfl, fun hbelow => hunique (velocity_below hbelow),
    fun hmin hmax => hunique (velocity_above hmin hmax),
    fun hin hdz => hunique (velocity_deadzone hin hdz),
    fun hin hdz => hunique (velocity_between hin hdz fun heq => ?_)⟩
  exact hdiv ⟨(inside_iff_of_max_eq_min heq).mp hin, heq, hdz⟩

/-- Settles O22. -/
theorem ivelPassesOperandsAndNaNs : Obligations.IvelPassesOperandsAndNaNs := by
  intro chan w v s
  refine ⟨fun hbelow => answers_ivel_iff.mpr (velocity_below hbelow),
    fun hmin hmax => answers_ivel_iff.mpr (velocity_above hmin hmax), fun hin hdiv hnan => ?_⟩
  have hdraw := drawnNaN_isNaN s.draws
  refine ⟨drawnNaN s.draws, answers_ivel_iff.mpr ?_, hdraw⟩
  by_cases hdz : InDeadzone 950 1050 chan
  · have hoperands := hnan.imp_right (Or.imp_right And.right)
    rw [velocity_deadzone hin hdz, ivel_midpoint_eq_nan hdraw hoperands]
  · have hne : w.max ≠ w.min := (hdiv.resolve_left hdz).symm
    have hoperands := hnan.imp_right fun h => h.resolve_right fun ⟨hdz', _⟩ => hdz hdz'
    rw [velocity_between hin hdz hne, ivel_interpolation_eq_nan hdraw hoperands]

/-- Settles O25: in an inverted window a value that is not below is above. -/
theorem ivelInvertedWindow : Obligations.IvelInvertedWindow := by
  intro chan w v s hinv
  refine answers_ivel_iff.mpr ?_
  split
  · next hbelow => exact velocity_below hbelow
  · next hbelow => exact velocity_above (not_lt.mp hbelow) (by omega)

/-- Settles O26. -/
theorem ipwmFollowsFormula : Obligations.IpwmFollowsFormula := by
  intro chan w r s
  refine ⟨fun hbelow => answers_ipwm_iff.mpr (pwm_below hbelow),
    fun hmin hmax => answers_ipwm_iff.mpr (pwm_above hmin hmax), fun hin hdz => ?_,
    fun hin hdz hne hlo hhi => ?_, fun t ht => ?_⟩
  · simpa only [answers_ipwm_iff] using exists_pwm_deadzone hin hdz
  · simpa only [answers_ipwm_iff, pwm_between hin hdz hne.symm] using exists_narrow_ok hlo hhi
  · cases (exec_ipwm chan w r s).symm.trans ht
    exact ⟨.of_answered s _, flt_answered_of_responds_ok⟩

/-- Settles O30: the answers are the formula's numbers, and at `cmin` the formula is `pmin`. -/
theorem ipwmFallsInUsualOrder : Obligations.IpwmFallsInUsualOrder := by
  intro chan chan' w r s x x' hr hin hin' hdz hdz' hle hx hx'
  have hw : w.min.toNat ≤ w.max.toNat := hin.1.trans hin.2
  rw [toInt_of_pwm_ok (answers_ipwm_iff.mp hx) hin hdz,
    toInt_of_pwm_ok (answers_ipwm_iff.mp hx') hin' hdz', ← pwmFormula_min w r]
  exact ⟨pwmFormula_le_of_le hw hr hin.1, pwmFormula_le_of_le hw hr hle⟩

/-- Settles O23. -/
theorem ivelWithoutRange : Obligations.IvelWithoutRange := by
  intro chan c v s habsent
  have hexec : exec (.ivel chan c v) s = .next (s.respond .nullRange 0) := by
    rcases habsent with rfl | rfl
    · rfl
    · cases c <;> rfl
  exact ⟨_, hexec, ⟨_, rfl, rfl, rfl⟩, .of_respond s _ _, rfl⟩

/-- Settles O29. -/
theorem ipwmWithoutRange : Obligations.IpwmWithoutRange := by
  intro chan c r s habsent
  have hexec : exec (.ipwm chan c r) s = .next (s.respond .nullRange 0) := by
    rcases habsent with rfl | rfl
    · rfl
    · cases c <;> rfl
  exact ⟨_, hexec, ⟨_, rfl, rfl, rfl⟩, .of_respond s _ _, rfl⟩

end Sys2Proof.Machine
end

section
/-! The step sequencer (spec/42_step_sequencer.md): a DRIVE with both operands moves the pins by its
direction alone, so the same direction again makes no edge; without an operand it only answers. -/

namespace Sys2Proof.Machine

/-- A sum of two statuses taken in `Int` has the low 32 bits of the sum of the words (R155). -/
theorem ofInt_toInt_add_toInt (a b : S32) : BitVec.ofInt 32 (a.toInt + b.toInt) = a + b := by
  rw [BitVec.ofInt_add, BitVec.ofInt_toInt, BitVec.ofInt_toInt]

/-- The direction DRIVE takes is a comparison of numbers (R151). -/
theorem forward_eq (chan : U16) (w : ChannelWindow) :
    forward chan w = decide (w.max.toNat < chan.toNat) := rfl

/-- An answered DRIVE leaves both pins at the level of its direction and two more events (R150). -/
theorem pins_of_exec_drive {chan : U16} {w : ChannelWindow} {s t : State}
    (h : exec (.drive chan (some w) .present) s = .next t) :
    t.dirOut = forward chan w ∧ t.stepOut = forward chan w ∧
      t.pinev = s.pinev ++ [⟨.dir, forward chan w⟩, ⟨.step, forward chan w⟩] := by
  cases (exec_drive_present chan w s).symm.trans h
  rw [drivePins_eq]
  exact ⟨rfl, rfl, rfl⟩

/-- Settles O31: the direction reads `cmax` alone, and the two pin writes leave the rest. -/
theorem driveWritesBothPins : Obligations.DriveWritesBothPins := by
  intro chan w s fwd sum
  obtain ⟨hdir, hstep, hpinev⟩ := pins_of_exec_drive (exec_drive_present chan w s)
  refine ⟨⟨_, exec_drive_present chan w s, hpinev, hdir, hstep,
    ⟨_, rfl, apply_ite Status.code _ _ _, ofInt_toInt_add_toInt _ _⟩, ?_⟩, fun cmin => rfl⟩
  simp [SameBank, SameFrame, SameHost, drivePins_eq]

/-- Settles O33: both DRIVE leave the pins at the level of the one direction. -/
theorem driveRepeatMakesNoEdge : Obligations.DriveRepeatMakesNoEdge := by
  intro chan chan' w w' s t u ht hu hsame
  have hfwd : forward chan' w' = forward chan w := by simp only [forward_eq, hsame]
  obtain ⟨hdir, hstep, -⟩ := pins_of_exec_drive ht
  obtain ⟨hdir', hstep', hpinev⟩ := pins_of_exec_drive hu
  refine ⟨?_, ?_, by simp [hpinev]⟩
  · rw [hdir', hdir, hfwd]
  · rw [hstep', hstep, hfwd]

/-- Settles O32. -/
theorem driveWithoutOperand : Obligations.DriveWithoutOperand := by
  intro chan c motor s habsent
  have hexec : exec (.drive chan c motor) s = .next (s.respond .nullArgument 0) := by
    rcases habsent with rfl | rfl
    · rfl
    · cases c <;> rfl
  exact ⟨_, hexec, ⟨_, rfl, rfl, rfl⟩, .of_respond s _ _, rfl⟩

end Sys2Proof.Machine
end

section
/-! The speed converter (spec/43_speed_converter.md R170 to R172): both operands of the division are
exact, so its one rounding is that of the whole quotient, and rounding does not leave the bounds
between which the quotient lies. -/

namespace Sys2Proof

/-- STEPINT has one legal header (R69). -/
theorem stepint_header_iff (h : Byte) : headerOp h = .stepint ∧ HeaderLegal h ↔ h = 6 := by
  revert h
  decide

/-- The speed is written low byte first (R60). -/
theorem decodeOperands_stepint_eq_ok_iff (p0 p1 : Bool) (a b : Byte) (rpm : U16) :
    decodeOperands .stepint p0 p1 [a, b] = .ok (.stepint rpm) ↔
      rpm.toNat = a.toNat + 256 * b.toNat := by
  have hread : decodeOperands .stepint p0 p1 [a, b] = .ok (.stepint (u16At a b)) := rfl
  rw [hread, Except.ok.injEq, Instr.stepint.injEq, ← BitVec.toNat_inj, u16At_toNat, eq_comm]

theorem decode_stepint_iff (h a b : Byte) (rpm : U16) : decode [h, a, b] = .ok (.stepint rpm) ↔
    h = 6 ∧ rpm.toNat = a.toNat + 256 * b.toNat := by
  rw [decode_eq_ok_iff_op, Instr.op, stepint_header_iff, decodeOperands_stepint_eq_ok_iff]
  exact and_iff_right rfl

end Sys2Proof

namespace Sys2Proof.Machine

/-! ### Rounding within bounds -/

theorem RoundsTo.finiteF_of_abs_lt {x : ℚ} {w : F} (h : RoundsTo x w)
    (hx : |x| < 2 ^ 128 - 2 ^ 103) : finiteF w = true := by
  rw [RoundsTo, if_neg (not_le.mpr hx)] at h
  exact h.1

/-- No finite pattern is nearer to a number than the one it rounds to. -/
theorem RoundsTo.abs_valueF_sub_le {x : ℚ} {w y : F} (h : RoundsTo x w)
    (hx : |x| < 2 ^ 128 - 2 ^ 103) (hy : finiteF y = true) : |valueF w - x| ≤ |valueF y - x| := by
  rw [RoundsTo, if_neg (not_le.mpr hx)] at h
  exact (h.2 y hy).1

/-- Rounding does not go above a pattern's number that is not below the exact one. -/
theorem RoundsTo.valueF_le {x : ℚ} {w y : F} (h : RoundsTo x w) (hx : |x| < 2 ^ 128 - 2 ^ 103)
    (hy : finiteF y = true) (hxy : x ≤ valueF y) : valueF w ≤ valueF y := by
  have hnear := h.abs_valueF_sub_le hx hy
  rw [abs_of_nonneg (sub_nonneg.mpr hxy)] at hnear
  linarith [le_abs_self (valueF w - x)]

/-- Rounding does not go below a pattern's number that is not above the exact one. -/
theorem RoundsTo.le_valueF {x : ℚ} {w y : F} (h : RoundsTo x w) (hx : |x| < 2 ^ 128 - 2 ^ 103)
    (hy : finiteF y = true) (hyx : valueF y ≤ x) : valueF y ≤ valueF w := by
  have hnear := h.abs_valueF_sub_le hx hy
  rw [abs_of_nonpos (sub_nonpos.mpr hyx)] at hnear
  linarith [neg_abs_le (valueF w - x)]

theorem finiteF_i2f {n : Int} (h : n.natAbs < 2 ^ 24) : finiteF (i2f n) = true := by
  have habs : |(n : ℚ)| < 2 ^ 24 := by
    rw [← Int.cast_abs, Int.abs_eq_natAbs]
    exact_mod_cast h
  exact (i2f_roundsTo n).finiteF_of_abs_lt (habs.trans (by norm_num))

/-! ### The step interval -/

/-- The microseconds of a minute fit in a significand: they are 15000000 * 2^2 (R171). -/
theorem unpack_i2f_usPerMin : unpack (i2f 60000000) = .fin false 15000000 2 := by decide

theorem valueF_i2f_usPerMin : valueF (i2f 60000000) = 60000000 := by
  rw [valueF_of_unpack unpack_i2f_usPerMin]
  norm_num [signQ]

theorem stepInterval_zero : stepInterval params 0 = 0 := by decide

theorem toNat_pos_of_ne_zero {rpm : U16} (h : rpm ≠ 0) : 0 < rpm.toNat :=
  Nat.pos_of_ne_zero (BitVec.toNat_ne_iff_ne.mpr h)

/-- STEPINT's division rounds the quotient of R170 once (R171). -/
theorem stepInterval_roundsTo {rpm : U16} (h : rpm ≠ 0) :
    RoundsTo (60000000 / (200 * rpm.toNat)) (stepInterval params rpm) := by
  have hsmall : ((200 * rpm.toNat : Nat) : Int).natAbs < 2 ^ 24 := by omega
  have hpos : (0 : ℚ) < rpm.toNat := by exact_mod_cast toNat_pos_of_ne_zero h
  have hsteps : valueF (i2f (200 * rpm.toNat : Nat)) = 200 * rpm.toNat := by
    rw [valueF_i2f hsmall]
    push_cast
    rfl
  have hne : valueF (i2f (200 * rpm.toNat : Nat)) ≠ 0 := by rw [hsteps]; positivity
  have hdiv := fdiv_roundsTo (nan := 0x7FC00000) (finiteF_iff.mpr ⟨_, _, _, unpack_i2f_usPerMin⟩)
    (finiteF_i2f hsmall) hne
  rwa [valueF_i2f_usPerMin, hsteps, ← stepInterval_eq h] at hdiv

/-- R172 (b) for the exact quotient: rpm is at least 1 and at most 65535. -/
theorem stepQuotient_bounds {rpm : U16} (h : rpm ≠ 0) :
    (4 : ℚ) ≤ 60000000 / (200 * rpm.toNat) ∧ (60000000 / (200 * rpm.toNat) : ℚ) ≤ 300000 := by
  have hone : (1 : ℚ) ≤ rpm.toNat := by exact_mod_cast toNat_pos_of_ne_zero h
  have hmax : (rpm.toNat : ℚ) ≤ 65535 := by exact_mod_cast Nat.le_of_lt_succ rpm.isLt
  have hpos : (0 : ℚ) < 200 * rpm.toNat := by positivity
  rw [le_div_iff₀ hpos, div_le_iff₀ hpos]
  constructor <;> linarith

/-! ### The statements -/

/-- Settles O34. -/
theorem stepintRoundsQuotient : Obligations.StepintRoundsQuotient := by
  refine ⟨decode_stepint_iff, fun rpm s => ⟨_, _, rfl, ⟨_, rfl, rfl, rfl⟩, ?_,
    stepInterval_roundsTo, .of_respond _ _ _, rfl⟩⟩
  rintro rfl
  exact stepInterval_zero

/-- Settles O35: 4 and 300000 are numbers of patterns, so rounding leaves the quotient between
them. -/
theorem stepintIsPositiveNormal : Obligations.StepintIsPositiveNormal := by
  rintro rpm s r hne ⟨t, ht, a, hresp, -, rfl⟩
  cases ht
  cases hresp
  have hround := stepInterval_roundsTo hne
  obtain ⟨hlo, hhi⟩ := stepQuotient_bounds hne
  have habs : |(60000000 / (200 * rpm.toNat) : ℚ)| < 2 ^ 128 - 2 ^ 103 :=
    abs_lt.mpr ⟨by linarith, by linarith⟩
  have h4 : valueF (i2f 4) = 4 := valueF_i2f (by decide)
  have h300000 : valueF (i2f 300000) = 300000 := valueF_i2f (by decide)
  refine ⟨hround.finiteF_of_abs_lt habs, ?_, ?_⟩
  · rw [← h4]
    exact hround.le_valueF habs (finiteF_i2f (by decide)) (h4.trans_le hlo)
  · rw [← h300000]
    exact hround.valueF_le habs (finiteF_i2f (by decide)) (hhi.trans_eq h300000.symm)

end Sys2Proof.Machine
end

section
/-! Illegal encodings as steps (spec/60_exceptions.md R184): an illegal command raises IllegalCmd in the
state past its bytes, and a raised fault leaves all but FLT and the response as it was. -/

namespace Sys2Proof.Machine

/-- The decoder rejects what R69 lists (R65). -/
theorem IllegalEncoding.exists_decode_error {h : Byte} {rest : List Byte}
    (hill : IllegalEncoding (h :: rest)) : ∃ e, decode (h :: rest) = .error e := by
  cases hd : decode (h :: rest) with
  | ok i =>
    obtain ⟨-, hlegal⟩ := decode_isOk_iff.mp ⟨i, hd⟩
    exact absurd hill (not_illegalEncoding_iff.mpr hlegal)
  | error e => exact ⟨e, rfl⟩

/-- A step at an illegal command raises IllegalCmd past the command's bytes (R65, R27). -/
theorem step_illegal {s : State} {h : Byte} {rest : List Byte} {moves : List HostMove}
    (hs : s.host = (h :: rest).map .cmdByte ++ moves) (hlen : rest.length + 1 = tableLength h)
    (hill : IllegalEncoding (h :: rest)) :
    step s = .next
      (State.raise { s with host := moves, cp := s.cp + (rest.length + 1) } .illegalCmd) := by
  obtain ⟨e, he⟩ := hill.exists_decode_error
  rw [← commandLength_eq] at hlen
  rw [step_of_host hs hlen, runCommand_error he, ← List.length_cons, State.advance_of_host hs]

/-- Settles O7: the state past the command differs from the one before it in the host's moves and cp
alone, and the raised fault keeps the rest. -/
theorem illegalCommandSetsOnlyItsBit : Obligations.IllegalCommandSetsOnlyItsBit := by
  intro s h rest moves hs hlen hill
  obtain ⟨hbank, hpins, hframe, hhost, hcp⟩ := SameButAnswer.of_raise
    { s with host := moves, cp := s.cp + (rest.length + 1) } .illegalCmd
  exact ⟨_, step_illegal hs hlen hill, .of_raise _ _, .of_raise _ .illegalCmd, hbank, hpins, hframe,
    hhost, hcp⟩

end Sys2Proof.Machine
end

section
/-! Reset (spec/70_reset_and_hazards.md R210 to R212): the values the spec states, at the start of a run
and after a RESET move. -/

namespace Sys2Proof.Machine

theorem AtReset.reset : AtReset State.reset :=
  ⟨rfl, rfl, rfl, rfl, rfl, rfl⟩

/-- A RESET takes the block to the stated values from every state (R211, R212). -/
theorem AtReset.resetBlock (s : State) : AtReset s.resetBlock :=
  ⟨s.resetBlock_chv, s.resetBlock_dirOut, s.resetBlock_stepOut, s.resetBlock_flt, s.resetBlock_pinev,
    s.resetBlock_flen⟩

/-- Settles O11: a RESET move is taken off the host's moves and resets the block, which leaves the pin
environment's answers (log 14). -/
theorem resetGivesStatedValues : Obligations.ResetGivesStatedValues := by
  refine ⟨.reset, fun s moves hs => ⟨_, step_reset hs, .resetBlock _, ?_, ?_⟩⟩
  · rw [State.resetBlock_pins, State.dropMove_pins]
  · rw [State.resetBlock_host, State.dropMove_host, hs, List.tail_cons]

end Sys2Proof.Machine
end
